-- ==== Sys2Proof/Word.lean ====
section
/-!
DEFINITION. The two word types of the CORE and their zero extension (spec/10_state.md section 1,
spec/00_scope.md R10: every value is unsigned, no sign extension exists).
-/

namespace Sys2Proof

/-- One V register, one memory cell, one timer: 8 bits (R20, R27, R28, R33). -/
abbrev Byte := BitVec 8

/-- `PC`, `I`, a call-stack entry, an opcode: 16 bits (R22, R24, R25, R80). -/
abbrev Word := BitVec 16

/-- The index of a V register, 0 to 15; `VF` is 15 (R20, R21). -/
abbrev VReg := Fin 16

/-- `zext_16` of a byte (R10). -/
def Byte.toWord (b : Byte) : Word := b.setWidth 16

/-- `bit(c)` of R10 as the byte a flag write stores: 1 if `c` holds and 0 otherwise. -/
def bitByte (c : Bool) : Byte := if c then 1 else 0

end Sys2Proof
end

