-- ==== Sys2Proof/Config.lean ====
section
/-!
DEFINITION. The parameters of spec/00_scope.md R5 that fix sizes, and the one free value of the
model, the byte on the port `RND`. The parameter `FONT_ROM` is the field `font` of State, its default
`defaultFontRom` of Machine/Memory.lean; the key scan order is `keyScanOrder` of
Machine/Operands.lean.
-/

namespace Sys2Proof.Config

/-- `MEM_SIZE` (R5): valid addresses are 0x000 to 0xFFF. -/
@[simp] def memSize : Nat := 4096

/-- `PROG_BASE` (R5): the reset value of `PC` and the load address of a ROM. -/
@[simp] def progBase : Nat := 0x200

/-- `ROM_MAX` (R5): the largest ROM `LOAD` accepts, 4096 - 0x200 bytes. -/
@[simp] def romMax : Nat := memSize - progBase

/-- `FONT_BASE` (R5): the address of glyph 0. -/
@[simp] def fontBase : Nat := 0

/-- `GLYPH_BYTES` (R5): bytes of one glyph. -/
@[simp] def glyphBytes : Nat := 5

/-- `FONT_GLYPHS` (R5): one glyph per hexadecimal digit. -/
@[simp] def fontGlyphs : Nat := 16

/-- The length of `FONT_ROM` (R5): 16 glyphs of 5 bytes. -/
@[simp] def fontSize : Nat := fontGlyphs * glyphBytes

/-- `STACK_DEPTH` (R5). -/
@[simp] def stackDepth : Nat := 16

/-- `FB_ROWS` (R5). -/
@[simp] def fbRows : Nat := 32

/-- `FB_COLS` (R5). -/
@[simp] def fbCols : Nat := 64

/-- `INSTR_BYTES` (R5): every instruction is 2 bytes. -/
@[simp] def instrBytes : Nat := 2

/-- `SPRITE_WIDTH` (R5): columns of a sprite. -/
@[simp] def spriteWidth : Nat := 8

/-- The byte the environment presents on the port `RND` for the `k`-th executed `RND Vx, nn`
(R133: "a free 8-bit input of this step"; R7, decision D14). It has no body: no proof can know a
value of it, so a claim about `RND` holds whatever bytes are drawn. DESIGN CHOICE (log 1), safe. -/
opaque rndByte : Nat → Byte

end Sys2Proof.Config
end

