-- ==== Sys2Proof/Syntax.lean ====
section
/-!
DEFINITION. The 34 instructions of spec/30_encoding.md R86, one constructor per row of
spec/opcode_table.json, in the table's order. `x` and `y` are V-register indices, `nn` is the 8-bit
immediate, `nnn` the 12-bit address and `n` the 4-bit row count (R12, R81); the ranges of `nnn` and
`n` are checked in WellFormed.lean. The field `y` of the two shifts is present in the encoding and
ignored (R82).
-/

namespace Sys2Proof

/-- An instruction of the CORE (R86). -/
inductive Instr where
  /-- `CLS`, 00E0, R150 -/
  | cls
  /-- `RET`, 00EE, R101 -/
  | ret
  /-- `JP nnn`, 1nnn, R102 -/
  | jp (nnn : Nat)
  /-- `CALL nnn`, 2nnn, R100 -/
  | call (nnn : Nat)
  /-- `SE Vx, nn`, 3xnn, R103 -/
  | seImm (x : VReg) (nn : Byte)
  /-- `SNE Vx, nn`, 4xnn, R104 -/
  | sneImm (x : VReg) (nn : Byte)
  /-- `SE Vx, Vy`, 5xy0, R105 -/
  | seReg (x y : VReg)
  /-- `LD Vx, nn`, 6xnn, R122 -/
  | ldImm (x : VReg) (nn : Byte)
  /-- `ADD Vx, nn`, 7xnn, R123 -/
  | addImm (x : VReg) (nn : Byte)
  /-- `LD Vx, Vy`, 8xy0, R124 -/
  | ldReg (x y : VReg)
  /-- `OR Vx, Vy`, 8xy1, R125 -/
  | orReg (x y : VReg)
  /-- `AND Vx, Vy`, 8xy2, R126 -/
  | andReg (x y : VReg)
  /-- `XOR Vx, Vy`, 8xy3, R127 -/
  | xorReg (x y : VReg)
  /-- `ADD Vx, Vy`, 8xy4, R128 -/
  | addReg (x y : VReg)
  /-- `SUB Vx, Vy`, 8xy5, R129 -/
  | subReg (x y : VReg)
  /-- `SHR Vx`, 8xy6, any `y`, R130 -/
  | shr (x y : VReg)
  /-- `SUBN Vx, Vy`, 8xy7, R131 -/
  | subnReg (x y : VReg)
  /-- `SHL Vx`, 8xyE, any `y`, R132 -/
  | shl (x y : VReg)
  /-- `SNE Vx, Vy`, 9xy0, R106 -/
  | sneReg (x y : VReg)
  /-- `LD I, nnn`, Annn, R140 -/
  | ldI (nnn : Nat)
  /-- `JP V0, nnn`, Bnnn, R109 -/
  | jpV0 (nnn : Nat)
  /-- `RND Vx, nn`, Cxnn, R133 -/
  | rnd (x : VReg) (nn : Byte)
  /-- `DRW Vx, Vy, n`, Dxyn, R151 -/
  | drw (x y : VReg) (n : Nat)
  /-- `SKP Vx`, Ex9E, R160 -/
  | skp (x : VReg)
  /-- `SKNP Vx`, ExA1, R161 -/
  | sknp (x : VReg)
  /-- `LD Vx, DT`, Fx07, R163 -/
  | ldVxDt (x : VReg)
  /-- `LD Vx, K`, Fx0A, R162 -/
  | ldVxK (x : VReg)
  /-- `LD DT, Vx`, Fx15, R164 -/
  | ldDtVx (x : VReg)
  /-- `LD ST, Vx`, Fx18, R165 -/
  | ldStVx (x : VReg)
  /-- `ADD I, Vx`, Fx1E, R141 -/
  | addIVx (x : VReg)
  /-- `LD F, Vx`, Fx29, R142 -/
  | ldFVx (x : VReg)
  /-- `LD B, Vx`, Fx33, R143 -/
  | ldBVx (x : VReg)
  /-- `LD [I], Vx`, Fx55, R145 -/
  | ldMemVx (x : VReg)
  /-- `LD Vx, [I]`, Fx65, R146 -/
  | ldVxMem (x : VReg)
  deriving DecidableEq, Repr

end Sys2Proof
end

