-- ==== Sys2Proof/WellFormed.lean ====
section
/-!
DEFINITION. Which terms of `Instr` stand for an instruction of the CORE: the address field of the
format NNN has 12 bits and the row count of the format XYN has 4 (spec/30_encoding.md R81, R83).
Register indices and the 8-bit immediate cannot be out of range by their types.
-/

namespace Sys2Proof

/-- `nnn` is "an unsigned 12-bit value 0 to 0xFFF" (R83). -/
def addressFits (nnn : Nat) : Bool := decide (nnn < 4096)

/-- `n` is "an unsigned row count 0 to 15" (R83). -/
def rowCountFits (n : Nat) : Bool := decide (n < 16)

/-- The operands fit the fields of the instruction's format (R82, R83). -/
def Instr.wf : Instr → Bool
  | .jp nnn => addressFits nnn
  | .call nnn => addressFits nnn
  | .ldI nnn => addressFits nnn
  | .jpV0 nnn => addressFits nnn
  | .drw _ _ n => rowCountFits n
  | .cls | .ret => true
  | .seImm _ _ | .sneImm _ _ | .ldImm _ _ | .addImm _ _ | .rnd _ _ => true
  | .seReg _ _ | .sneReg _ _ | .ldReg _ _ | .orReg _ _ | .andReg _ _ | .xorReg _ _ => true
  | .addReg _ _ | .subReg _ _ | .subnReg _ _ | .shr _ _ | .shl _ _ => true
  | .skp _ | .sknp _ | .ldVxDt _ | .ldVxK _ | .ldDtVx _ | .ldStVx _ => true
  | .addIVx _ | .ldFVx _ | .ldBVx _ | .ldMemVx _ | .ldVxMem _ => true

/-- `Instr.wf` as a proposition. -/
abbrev Instr.WellFormed (i : Instr) : Prop := i.wf = true

end Sys2Proof
end

