-- ==== Sys2Proof/Decode.lean ====
section
/-!
DEFINITION. The decoder, total on all 16-bit words and on all byte lists, and the encoder
(spec/30_encoding.md R80 to R89, spec/20_memory.md R54, R55). The bit patterns are the ones R86
gives; the spec itself says they come from general knowledge (decision D1): UNVERIFIED (log 3).
-/

namespace Sys2Proof

/-- Why a byte string is no instruction. -/
inductive DecodeError where
  /-- The opcode matches no row of R86 (R88: an unknown opcode, reported and skipped, no fault). -/
  | unknownOpcode (op : Word)
  /-- Fewer than two bytes were given (R80: every instruction is exactly 2 bytes). -/
  | truncated
  deriving DecidableEq, Repr

/-- The slice `op[lo + width - 1 : lo]` as a number (R10). -/
def slice (op : Word) (lo width : Nat) : Nat := op.toNat / 2 ^ lo % 2 ^ width

/-- `x = op[11:8]` (R81). -/
def fieldX (op : Word) : VReg := Fin.ofNat 16 (slice op 8 4)

/-- `y = op[7:4]` (R81). -/
def fieldY (op : Word) : VReg := Fin.ofNat 16 (slice op 4 4)

/-- `n = op[3:0]` (R81). -/
def fieldN (op : Word) : Nat := slice op 0 4

/-- `nn = op[7:0]` (R81). -/
def fieldNN (op : Word) : Byte := BitVec.ofNat 8 (slice op 0 8)

/-- `nnn = op[11:0]` (R81). -/
def fieldNNN (op : Word) : Nat := slice op 0 12

/-- Class 0: second level on the whole low 12 bits (R84, R85). -/
def decodeClass0 (op : Word) : Except DecodeError Instr :=
  match slice op 0 12 with
  | 0x0E0 => .ok .cls
  | 0x0EE => .ok .ret
  | _ => .error (.unknownOpcode op)

/-- Class 5: the low nibble must be 0 (R87). -/
def decodeClass5 (op : Word) : Except DecodeError Instr :=
  match slice op 0 4 with
  | 0 => .ok (.seReg (fieldX op) (fieldY op))
  | _ => .error (.unknownOpcode op)

/-- Class 8: second level on the low nibble (R85, R86). -/
def decodeClass8 (op : Word) : Except DecodeError Instr :=
  match slice op 0 4 with
  | 0x0 => .ok (.ldReg (fieldX op) (fieldY op))
  | 0x1 => .ok (.orReg (fieldX op) (fieldY op))
  | 0x2 => .ok (.andReg (fieldX op) (fieldY op))
  | 0x3 => .ok (.xorReg (fieldX op) (fieldY op))
  | 0x4 => .ok (.addReg (fieldX op) (fieldY op))
  | 0x5 => .ok (.subReg (fieldX op) (fieldY op))
  | 0x6 => .ok (.shr (fieldX op) (fieldY op))
  | 0x7 => .ok (.subnReg (fieldX op) (fieldY op))
  | 0xE => .ok (.shl (fieldX op) (fieldY op))
  | _ => .error (.unknownOpcode op)

/-- Class 9: the low nibble must be 0 (R87). -/
def decodeClass9 (op : Word) : Except DecodeError Instr :=
  match slice op 0 4 with
  | 0 => .ok (.sneReg (fieldX op) (fieldY op))
  | _ => .error (.unknownOpcode op)

/-- Class E: second level on the low byte (R85, R86). -/
def decodeClassE (op : Word) : Except DecodeError Instr :=
  match slice op 0 8 with
  | 0x9E => .ok (.skp (fieldX op))
  | 0xA1 => .ok (.sknp (fieldX op))
  | _ => .error (.unknownOpcode op)

/-- Class F: second level on the low byte (R85, R86). -/
def decodeClassF (op : Word) : Except DecodeError Instr :=
  match slice op 0 8 with
  | 0x07 => .ok (.ldVxDt (fieldX op))
  | 0x0A => .ok (.ldVxK (fieldX op))
  | 0x15 => .ok (.ldDtVx (fieldX op))
  | 0x18 => .ok (.ldStVx (fieldX op))
  | 0x1E => .ok (.addIVx (fieldX op))
  | 0x29 => .ok (.ldFVx (fieldX op))
  | 0x33 => .ok (.ldBVx (fieldX op))
  | 0x55 => .ok (.ldMemVx (fieldX op))
  | 0x65 => .ok (.ldVxMem (fieldX op))
  | _ => .error (.unknownOpcode op)

/-- The two-level decode of R84: first the top nibble `op[15:12]`, then the selector of the class.
Every word is one of the 34 instructions or unknown (R89). -/
def decode (op : Word) : Except DecodeError Instr :=
  match slice op 12 4 with
  | 0x0 => decodeClass0 op
  | 0x1 => .ok (.jp (fieldNNN op))
  | 0x2 => .ok (.call (fieldNNN op))
  | 0x3 => .ok (.seImm (fieldX op) (fieldNN op))
  | 0x4 => .ok (.sneImm (fieldX op) (fieldNN op))
  | 0x5 => decodeClass5 op
  | 0x6 => .ok (.ldImm (fieldX op) (fieldNN op))
  | 0x7 => .ok (.addImm (fieldX op) (fieldNN op))
  | 0x8 => decodeClass8 op
  | 0x9 => decodeClass9 op
  | 0xA => .ok (.ldI (fieldNNN op))
  | 0xB => .ok (.jpV0 (fieldNNN op))
  | 0xC => .ok (.rnd (fieldX op) (fieldNN op))
  | 0xD => .ok (.drw (fieldX op) (fieldY op) (fieldN op))
  | 0xE => decodeClassE op
  | 0xF => decodeClassF op
  | _ => .error (.unknownOpcode op)

/-- The opcode of the bytes at `PC` and `PC + 1`: `op = b0 ++ b1`, the lower address the high byte
(R54, R55). -/
def composeOpcode (b0 b1 : Byte) : Word := b0 ++ b1

/-- `op[15:8]`, the byte at the lower address (R80). -/
def highByte (op : Word) : Byte := BitVec.ofNat 8 (slice op 8 8)

/-- `op[7:0]`, the byte at the higher address (R80). -/
def lowByte (op : Word) : Byte := BitVec.ofNat 8 (slice op 0 8)

/-- Decode the first two bytes of a byte string; the answer carries the bytes after them. -/
def decodeBytes : List Byte → Except DecodeError (Instr × List Byte)
  | b0 :: b1 :: rest =>
    match decode (composeOpcode b0 b1) with
    | .ok i => .ok (i, rest)
    | .error e => .error e
  | _ => .error .truncated

/-! ### The encoder -/

/-- Format NNN: `c nnn nnn nnn` (R82). -/
def wordNNN (c nnn : Nat) : Word := BitVec.ofNat 16 (c * 0x1000 + nnn)

/-- Format XNN: `c x nn nn` (R82). -/
def wordXNN (c : Nat) (x : VReg) (nn : Byte) : Word :=
  BitVec.ofNat 16 (c * 0x1000 + x.val * 0x100 + nn.toNat)

/-- Formats XY and XYN: `c x y s` with the selector or the row count in the low nibble (R82). -/
def wordXYN (c : Nat) (x y : VReg) (n : Nat) : Word :=
  BitVec.ofNat 16 (c * 0x1000 + x.val * 0x100 + y.val * 0x10 + n)

/-- Format X: `c x s s` with the selector in the low byte (R82). -/
def wordX (c : Nat) (x : VReg) (sel : Nat) : Word :=
  BitVec.ofNat 16 (c * 0x1000 + x.val * 0x100 + sel)

/-- The opcode word of a well-formed instruction (R86). -/
def encode : Instr → Word
  | .cls => 0x00E0
  | .ret => 0x00EE
  | .jp nnn => wordNNN 0x1 nnn
  | .call nnn => wordNNN 0x2 nnn
  | .seImm x nn => wordXNN 0x3 x nn
  | .sneImm x nn => wordXNN 0x4 x nn
  | .seReg x y => wordXYN 0x5 x y 0x0
  | .ldImm x nn => wordXNN 0x6 x nn
  | .addImm x nn => wordXNN 0x7 x nn
  | .ldReg x y => wordXYN 0x8 x y 0x0
  | .orReg x y => wordXYN 0x8 x y 0x1
  | .andReg x y => wordXYN 0x8 x y 0x2
  | .xorReg x y => wordXYN 0x8 x y 0x3
  | .addReg x y => wordXYN 0x8 x y 0x4
  | .subReg x y => wordXYN 0x8 x y 0x5
  | .shr x y => wordXYN 0x8 x y 0x6
  | .subnReg x y => wordXYN 0x8 x y 0x7
  | .shl x y => wordXYN 0x8 x y 0xE
  | .sneReg x y => wordXYN 0x9 x y 0x0
  | .ldI nnn => wordNNN 0xA nnn
  | .jpV0 nnn => wordNNN 0xB nnn
  | .rnd x nn => wordXNN 0xC x nn
  | .drw x y n => wordXYN 0xD x y n
  | .skp x => wordX 0xE x 0x9E
  | .sknp x => wordX 0xE x 0xA1
  | .ldVxDt x => wordX 0xF x 0x07
  | .ldVxK x => wordX 0xF x 0x0A
  | .ldDtVx x => wordX 0xF x 0x15
  | .ldStVx x => wordX 0xF x 0x18
  | .addIVx x => wordX 0xF x 0x1E
  | .ldFVx x => wordX 0xF x 0x29
  | .ldBVx x => wordX 0xF x 0x33
  | .ldMemVx x => wordX 0xF x 0x55
  | .ldVxMem x => wordX 0xF x 0x65

/-- The two bytes of an instruction in address order (R55, R80). -/
def encodeBytes (i : Instr) : List Byte := [highByte (encode i), lowByte (encode i)]

/-! ### The opcode table's bit numbering -/

/-- The opcode of an instruction given as the table numbers its bits: bit 0 the least significant
of the one 16-bit word; bits at `nbits` and above are 0. -/
def tableOpcode (nbits w : Nat) : Word := BitVec.ofNat 16 (w % 2 ^ nbits)

/-- What the decoder reads from a table word, laid out as the hardware stores it: the high byte at
the lower address (R55). -/
def decodeTableWord (nbits w : Nat) : Option Instr :=
  match decodeBytes [highByte (tableOpcode nbits w), lowByte (tableOpcode nbits w)] with
  | .ok (i, _) => some i
  | .error _ => none

end Sys2Proof
end

