-- ==== Sys2Proof/Machine/Memory.lean ====
section
/-!
DEFINITION. Memory: the parameter `FONT_ROM`, the reset contents, reading and writing one byte, the
canonical form, and the byte sequences of the block instructions (spec/20_memory.md,
spec/10_state.md R33, R41).
-/

namespace Sys2Proof.Machine

/-- `M[0..4095]` (R33): the bytes that differ from their reset contents, by strictly rising address.
What an unlisted address reads as is `resetByte`. -/
abbrev Memory := List Host.Cell

/-- The parameter `FONT_ROM` (R5, R41, decision D4): the 80 bytes preloaded at the font's place. -/
abbrev FontRom := Vector Byte Config.fontSize

/-- The table of R41: the conventional glyphs 0 to F, five bytes each, top row first. The spec marks
it as general knowledge: UNVERIFIED (log 2). -/
def fontTable : List Byte :=
  [0xF0, 0x90, 0x90, 0x90, 0xF0] ++ [0x20, 0x60, 0x20, 0x20, 0x70] ++
  [0xF0, 0x10, 0xF0, 0x80, 0xF0] ++ [0xF0, 0x10, 0xF0, 0x10, 0xF0] ++
  [0x90, 0x90, 0xF0, 0x10, 0x10] ++ [0xF0, 0x80, 0xF0, 0x10, 0xF0] ++
  [0xF0, 0x80, 0xF0, 0x90, 0xF0] ++ [0xF0, 0x10, 0x20, 0x40, 0x40] ++
  [0xF0, 0x90, 0xF0, 0x90, 0xF0] ++ [0xF0, 0x90, 0xF0, 0x10, 0xF0] ++
  [0xF0, 0x90, 0xF0, 0x90, 0x90] ++ [0xE0, 0x90, 0xE0, 0x90, 0xE0] ++
  [0xF0, 0x80, 0x80, 0x80, 0xF0] ++ [0xE0, 0x90, 0x90, 0x90, 0xE0] ++
  [0xF0, 0x80, 0xF0, 0x80, 0xF0] ++ [0xF0, 0x80, 0xF0, 0x80, 0x80]

/-- The default of the parameter `FONT_ROM`: the table of R41. -/
def defaultFontRom : FontRom := Vector.ofFn fun k => fontTable.getD k.val 0

/-- What an address reads as until something writes it: the font from `FONT_BASE`, every other byte
0x00 (R33, R51). -/
def resetByte (font : FontRom) (a : Nat) : Byte :=
  if a < Config.fontBase then 0 else font.toList.getD (a - Config.fontBase) 0

/-- `MemRead(a, 1)` (R11): the byte `M[a]`. -/
def readByte (font : FontRom) : Memory → Nat → Byte
  | [], a => resetByte font a
  | (k, b) :: rest, a => if k = a then b else readByte font rest a

/-- `MemWrite(a, 1, b)` (R11), keeping the canonical form: addresses rise strictly, and a byte equal
to its reset contents is not listed. -/
def writeByte (font : FontRom) : Memory → Nat → Byte → Memory
  | [], a, b => if b = resetByte font a then [] else [(a, b)]
  | (k, c) :: rest, a, b =>
    if a < k then (if b = resetByte font a then (k, c) :: rest else (a, b) :: (k, c) :: rest)
    else if a = k then (if b = resetByte font a then rest else (a, b) :: rest)
    else (k, c) :: writeByte font rest a b

/-- The canonical form of a memory: addresses strictly rising and inside the address space, and no
entry equal to what an unlisted address reads as. -/
abbrev Memory.wf (font : FontRom) (m : Memory) : Prop :=
  m.Pairwise (fun c d => c.1 < d.1) ∧ ∀ c ∈ m, c.1 < Config.memSize ∧ c.2 ≠ resetByte font c.1

/-- Single-byte writes at `a`, `a + 1`, ... in ascending address order (R57). -/
def writeBytes (font : FontRom) : Memory → Nat → List Byte → Memory
  | m, _, [] => m
  | m, a, b :: bs => writeBytes font (writeByte font m a b) (a + 1) bs

/-- An address is in range iff `0 <= a <= 0xFFF` (R52). -/
def inRange (a : Nat) : Bool := decide (a ≤ 0xFFF)

/-- The check of a whole block of `len` bytes at `a` before any byte of it moves (R59): a block of
length 0 makes no access, any other needs its last address in range. The sum is exact (R53). -/
def blockInRange (a len : Nat) : Bool := len == 0 || inRange (a + len - 1)

end Sys2Proof.Machine
end

