-- ==== Sys2Proof/Machine/State.lean ====
section
/-!
DEFINITION. The state of the CORE as plain data (spec/10_state.md), its value after reset, and the
ways a step can end without a next state.
-/

namespace Sys2Proof.Machine

/-- `FB` (R29): 32 rows of 64 one-bit pixels; bit `col` of row `row` is `FB[row * 64 + col]`
(log 10). -/
abbrev Framebuffer := Vector (BitVec 64) 32

/-- The causes of the fatal-fault latch (R170). -/
inductive FaultCause where
  /-- code 1, raised by the fetch of any step -/
  | fetchOutOfRange
  /-- code 2, raised by `DRW`, `LD B, Vx`, `LD [I], Vx`, `LD Vx, [I]` -/
  | dataOutOfRange
  /-- code 3, raised by `CALL nnn` -/
  | stackOverflow
  /-- code 4, raised by `RET` -/
  | stackUnderflow
  /-- code 5, raised by the host operation `LOAD(rom)` -/
  | romTooLarge
  deriving DecidableEq, Repr

/-- A latched fatal fault: its cause and the 17-bit `FAULT.info` (R32, R170). -/
structure FaultReport where
  cause : FaultCause
  info : BitVec 17
  deriving DecidableEq, Repr

/-- The unknown-opcode report `UNK = (1, op, address)` (R172). -/
structure UnknownReport where
  op : Word
  address : Word
  deriving DecidableEq, Repr

/-- The state of the CORE. The fields `v` to `fault` are the architectural state of
spec/10_state.md section 1; `tone` and `unk` hold the outputs of the step just run (R7, R8; log 9); `draws`
is the model's own counter of `RND` bytes consumed (log 1); `font` is the parameter `FONT_ROM`, which
nothing changes (log 17). -/
structure State where
  /-- `V[0..15]`, R20 -/
  v : Vector Byte 16
  /-- `PC`, R22 -/
  pc : Word
  /-- `I`, R24 -/
  i : Word
  /-- `STACK[0..15]`, R25 -/
  stack : Vector Word 16
  /-- `SP`, an integer from 0 to 16, R26 -/
  sp : Fin 17
  /-- `DT`, R27 -/
  dt : Byte
  /-- `ST`, R28 -/
  st : Byte
  /-- `M[0..4095]`, R33 -/
  mem : Memory
  /-- `FB[0..2047]`, R29 -/
  fb : Framebuffer
  /-- `DIRTY`, R30 -/
  dirty : Bool
  /-- `KEYS[0..15]`, R31 -/
  keys : Vector Bool 16
  /-- `FAULT`, R32; `none` is code 0, info 0 -/
  fault : Option FaultReport
  /-- the output `TONE` of the step just run, R184 -/
  tone : Bool
  /-- the output `UNK` of the step just run, R172; `none` is 0 -/
  unk : Option UnknownReport
  /-- how many bytes of `RND` have been consumed; the model's own field (log 1) -/
  draws : Nat
  /-- the parameter `FONT_ROM`, R5, R41 (log 17) -/
  font : FontRom
  deriving DecidableEq, Repr

/-- The machine with a given `FONT_ROM` right after `RESET`: "all state zeroed except PC=0x200 and the
font region pre-loaded" (R40, R200). Memory lists nothing, so that every byte reads as its reset
contents. -/
def State.resetWith (font : FontRom) : State where
  v := Vector.replicate 16 0
  pc := 0x200
  i := 0
  stack := Vector.replicate 16 0
  sp := 0
  dt := 0
  st := 0
  mem := []
  fb := Vector.replicate 32 0
  dirty := false
  keys := Vector.replicate 16 false
  fault := none
  tone := false
  unk := none
  draws := 0
  font := font

/-- The machine right after `RESET`, `FONT_ROM` at its default (R41). -/
def State.reset : State := State.resetWith defaultFontRom

/-- A step that ends in a fault with no next state. There is none: every fatal error of the spec is
the latch `FAULT` of a next state (R173), and a step of the halted core is a step that changes
nothing (R90). Safe: no constructor, so no step can stop here (log 4). -/
inductive Fault where
  deriving DecidableEq, Repr

/-- Why there is no move. -/
inductive Refusal where
  /-- Raised by `exec` for an instruction that has no meaning yet. Safe. No arm uses it. -/
  | notModelled (mnemonic : String)
  /-- Raised by the host operation `LOAD` anywhere but once directly after `RESET` (R204: "a model has no
  `LOAD` move in any other state"; U15). Safe: a claim about such a load is unprovable. -/
  | loadNotAfterReset
  deriving DecidableEq, Repr

/-- What executing an instruction or a step answers. -/
abbrev Result := Host.Outcome State Fault Refusal

end Sys2Proof.Machine
end

