-- ==== Sys2Proof/Machine/Flags.lean ====
section
/-!
DEFINITION. The results and the flag values of the arithmetic instructions (spec/10_state.md R34,
spec/41_alu.md R128 to R132). All arithmetic is unsigned, 8 bits wide and wraps (R134).
-/

namespace Sys2Proof.Machine

/-- The carry of `ADD Vx, Vy`: 1 if the exact sum exceeds 255 (R128). -/
def carryFlag (a b : Byte) : Byte := bitByte (decide (a.toNat + b.toNat > 255))

/-- The flag of a subtraction `a - b`: 1 if there is no borrow, `a >= b` (R129, R131). -/
def noBorrowFlag (a b : Byte) : Byte := bitByte (decide (a.toNat ≥ b.toNat))

/-- The flag of `SHR`: bit 0 before the shift (R130). -/
def shiftedOutLow (a : Byte) : Byte := bitByte (a.getLsbD 0)

/-- The flag of `SHL`: bit 7 before the shift (R132). -/
def shiftedOutHigh (a : Byte) : Byte := bitByte (a.getLsbD 7)

/-- `(a + b) mod 256` (R123, R128). -/
def sumByte (a b : Byte) : Byte := a + b

/-- `(a - b) mod 256` (R129, R131). -/
def differenceByte (a b : Byte) : Byte := a - b

/-- `a >> 1`, logical (R130). -/
def shiftRightByte (a : Byte) : Byte := a >>> 1

/-- `(a << 1) mod 256` (R132). -/
def shiftLeftByte (a : Byte) : Byte := a <<< 1

end Sys2Proof.Machine
end

