-- ==== Sys2Proof/Machine/Operands.lean ====
section
/-!
DEFINITION. The operand forms: V registers, register blocks, addresses computed from `I`, jump
targets, key indices, the font address and the decimal digits. Every instruction reads all its
operands from the state before its first write (spec/41_alu.md R120).
-/

namespace Sys2Proof.Machine

/-- `VF` (R21): register 15, an ordinary register. -/
def vf : VReg := 15

/-- `V[x]` (R11, R20). -/
def getV (s : State) (x : VReg) : Byte := s.v[x.val]

/-- `V[x] <- b` (R11, R20). -/
def setV (s : State) (x : VReg) (b : Byte) : State := { s with v := s.v.set x.val b }

/-- The byte `M[a]` of a state (R11). -/
def byteAt (s : State) (a : Nat) : Byte := readByte s.font s.mem a

/-- Single-byte writes at `a`, `a + 1`, ... into the memory of a state (R11, R57). -/
def storeBytes (s : State) (a : Nat) (bs : List Byte) : State :=
  { s with mem := writeBytes s.font s.mem a bs }

/-- The memory of a state is in its canonical form (log 8). -/
abbrev MemWf (s : State) : Prop := Memory.wf s.font s.mem

/-- The effective address of byte `k` of a block: the exact natural number `I + k` (R53, R144). -/
def effectiveAddress (s : State) (k : Nat) : Nat := s.i.toNat + k

/-- The length of the block `V[0]` to `V[x]` (R57, R145, R146). -/
def blockLength (x : VReg) : Nat := x.val + 1

/-- The registers `V[0]` to `V[x]` in ascending order, as `LD [I], Vx` stores them (R145). -/
def registerBlock (s : State) (x : VReg) : List Byte := s.v.toList.take (blockLength x)

/-- `V[0]` to `V[x]` loaded from `M[I..I+x]`; registers above `x` keep their values (R146). -/
def loadRegisterBlock (s : State) (x : VReg) : State :=
  { s with v := Vector.ofFn fun k : VReg =>
      if k.val ≤ x.val then byteAt s (effectiveAddress s k.val) else getV s k }

/-- `zext_16(nnn)` (R83). -/
def addressWord (nnn : Nat) : Word := BitVec.ofNat 16 nnn

/-- The target of `JP V0, nnn`: `zext_16(nnn) + zext_16(V[0])` (R109). -/
def jumpV0Target (s : State) (nnn : Nat) : Word := addressWord nnn + (getV s 0).toWord

/-- The key index of `SKP` and `SKNP`: the low nibble of `Vx` (R160). -/
def keyIndex (a : Byte) : Fin 16 := Fin.ofNat 16 (a.toNat % 16)

/-- `KEYS[k]` as sampled at the start of the step (R31). -/
def keyDown (s : State) (k : Fin 16) : Bool := s.keys[k.val]

/-- `KEY_SCAN_ORDER` (R5): ascending index. -/
def keyScanOrder : List (Fin 16) := [0, 1, 2, 3, 4, 5, 6, 7, 8, 9, 10, 11, 12, 13, 14, 15]

/-- The key `LD Vx, K` finds: the first pressed key of the scan (R162). -/
def scanKeys (s : State) : Option (Fin 16) := keyScanOrder.find? (keyDown s)

/-- The value of key index `k` stored into a register: 0x00 to 0x0F (R162). -/
def keyByte (k : Fin 16) : Byte := BitVec.ofNat 8 k.val

/-- The font address of `LD F, Vx`: `(Vx & 0x0F) * 5` from `FONT_BASE` (R142). -/
def fontAddress (a : Byte) : Word :=
  BitVec.ofNat 16 (Config.fontBase + a.toNat % 16 * Config.glyphBytes)

/-- The three digits of `LD B, Vx`: hundreds, tens, ones (R143). -/
def bcdDigits (a : Byte) : List Byte :=
  [BitVec.ofNat 8 (a.toNat / 100), BitVec.ofNat 8 (a.toNat / 10 % 10),
    BitVec.ofNat 8 (a.toNat % 10)]

/-- The sum of `ADD I, Vx`: `(I + zext_16(Vx)) mod 2^16` (R141). -/
def indexSum (i : Word) (a : Byte) : Word := i + a.toWord

end Sys2Proof.Machine
end

