-- ==== Sys2Proof/Machine/Ops.lean ====
section
/-!
DEFINITION. The operations the instruction meanings share: advancing `PC`, the two write orders of
result and flag, the call stack, raising a fatal fault, the range-checked block, and the phases of
the step around execute (fetch, unknown opcode, timers).
-/

namespace Sys2Proof.Machine

/-! ### Program counter -/

/-- `PC <- PC + k`, modulo 2^16 (R23). -/
def advance (s : State) (k : Nat) : State := { s with pc := s.pc + BitVec.ofNat 16 k }

/-- `PC <- PC + 2`, the normal end of an instruction (R23). -/
def next2 (s : State) : State := advance s Config.instrBytes

/-- A conditional skip: `PC <- PC + 4` if the condition holds, else `PC <- PC + 2` (R23, R110). -/
def skipIf (s : State) (c : Bool) : State := advance s (if c then 4 else 2)

/-- `PC <- target` (R110). -/
def jumpTo (s : State) (target : Word) : State := { s with pc := target }

/-! ### Register results -/

/-- `V[x] <- r ; PC <- PC + 2`. -/
def writeResult (s : State) (x : VReg) (r : Byte) : State := next2 (setV s x r)

/-- Result first, then the flag into `VF` (R121: `ADD Vx, Vy`). -/
def writeResultThenFlag (s : State) (x : VReg) (r f : Byte) : State := next2 (setV (setV s x r) vf f)

/-- Flag into `VF` first, then the result (R121: `SUB`, `SUBN`, `SHR`, `SHL`). -/
def writeFlagThenResult (s : State) (x : VReg) (r f : Byte) : State := next2 (setV (setV s vf f) x r)

/-- `I <- w ; PC <- PC + 2`. -/
def writeIndex (s : State) (w : Word) : State := next2 { s with i := w }

/-! ### Taking the fatal fault -/

/-- The numeric code of a cause (R170). -/
def FaultCause.code : FaultCause → Nat
  | .fetchOutOfRange => 1
  | .dataOutOfRange => 2
  | .stackOverflow => 3
  | .stackUnderflow => 4
  | .romTooLarge => 5

/-- `FAULT.code` (R32): 0 for none. -/
def faultCode (s : State) : Nat :=
  match s.fault with
  | none => 0
  | some f => f.cause.code

/-- `FAULT.info` (R32): 0 for none. -/
def faultInfo (s : State) : BitVec 17 :=
  match s.fault with
  | none => 0
  | some f => f.info

/-- The core is halted while `FAULT.code != 0` (R173). -/
def halted (s : State) : Bool := s.fault.isSome

/-- `raise F(info)` (R173): `FAULT` is latched, `TONE` and `UNK` are 0, and all other state is as it
was before the step. There is no handler and no vector: control goes nowhere (R179). There is no
return from it; `RESET` is the only exit (R180). -/
def raise (s : State) (c : FaultCause) (info : Nat) : State :=
  { s with fault := some ⟨c, BitVec.ofNat 17 info⟩, tone := false, unk := none }

/-- The information of `DataOutOfRange`: the lowest out-of-range address of the block,
`max(I, 0x1000)` (R59, R170). -/
def dataFaultInfo (s : State) : Nat := max s.i.toNat 0x1000

/-- The effect `f` of an instruction that moves a block of `len` bytes at `I`: the whole block is
range-checked first, and if any address is out of range nothing is moved (R59). -/
def withBlock (s : State) (len : Nat) (f : State → State) : State :=
  if blockInRange s.i.toNat len then f s else raise s .dataOutOfRange (dataFaultInfo s)

/-! ### Call stack -/

/-- The push of `CALL` (R100): `STACK[SP] <- PC ; SP <- SP + 1 ; PC <- target`, or `StackOverflow`
when `SP = 16` (R171). The entry is the address of the `CALL` itself. -/
def callTo (s : State) (target : Word) : State :=
  if h : s.sp.val < 16 then
    { s with stack := s.stack.set s.sp.val s.pc h, sp := ⟨s.sp.val + 1, by omega⟩, pc := target }
  else raise s .stackOverflow s.sp.val

/-- The pop of `RET` (R101): `SP <- SP - 1 ; PC <- STACK[SP] + 2`, or `StackUnderflow` when
`SP = 0` (R171). The popped entry keeps its content (R25). -/
def returnFromCall (s : State) : State :=
  if h : 0 < s.sp.val then
    { s with
      sp := ⟨s.sp.val - 1, by omega⟩
      pc := s.stack[s.sp.val - 1]'(by omega) + BitVec.ofNat 16 Config.instrBytes }
  else raise s .stackUnderflow s.sp.val

/-! ### The phases of a step around execute -/

/-- The outputs describe this step only: `TONE <- 0 ; UNK <- 0` (R90). -/
def clearOutputs (s : State) : State := { s with tone := false, unk := none }

/-- `Fetch(PC)` (R54): the two bytes at `PC` and `PC + 1` composed big-endian, or nothing when
`PC + 1` is out of range. -/
def fetchOpcode (s : State) : Option Word :=
  if inRange (s.pc.toNat + 1) then
    some (composeOpcode (byteAt s s.pc.toNat) (byteAt s (s.pc.toNat + 1)))
  else none

/-- The fault of a fetch out of range: `FetchOutOfRange(PC)` (R54, R176). -/
def raiseFetch (s : State) : State := raise s .fetchOutOfRange s.pc.toNat

/-- The execute phase of an unknown opcode: `UNK <- (1, op, PC) ; PC <- PC + 2` (R88, R172). -/
def unknownOpcode (s : State) (op : Word) : State := next2 { s with unk := some ⟨op, s.pc⟩ }

/-- One decrement of a timer, clamped at zero (R183). -/
def countDown (t : Byte) : Byte := if t = 0 then 0 else t - 1

/-- The timer phase (R183): `TONE` is 1 iff it finds `ST = 1` (R184). -/
def timerPhase (s : State) : State :=
  { s with tone := decide (s.st = 1), dt := countDown s.dt, st := countDown s.st }

/-- The end of a step after execute: the timer phase, or nothing more if the instruction raised a
fatal fault (R90: "phase 4 does not run"). -/
def finishStep (s : State) : State := if halted s then s else timerPhase s

/-! ### Placing an instruction where the next step fetches it -/

/-- `s` with the opcode `op` stored at `PC`, high byte first (R55). Where nothing could be fetched
(`PC >= 0xFFF`, or a latched fault) `PC` is set to the program base and the latch cleared, so that
the very next step runs it (log 7). -/
def placeOpcode (s : State) (op : Word) : State :=
  let pc := if inRange (s.pc.toNat + 1) then s.pc else BitVec.ofNat 16 Config.progBase
  storeBytes { s with pc := pc, fault := none } pc.toNat [highByte op, lowByte op]

end Sys2Proof.Machine
end

