-- ==== Sys2Proof/Machine/Alu.lean ====
section
/-!
DEFINITION. Register and ALU instructions (spec/41_alu.md). Operands are read from the state before
the first write (R120); the order of result and flag is R121's.
-/

namespace Sys2Proof.Machine

/-- `LD Vx, nn` (R122). -/
def execLdImm (x : VReg) (nn : Byte) (s : State) : Result := .next (writeResult s x nn)

/-- `ADD Vx, nn` (R123): no flag. -/
def execAddImm (x : VReg) (nn : Byte) (s : State) : Result :=
  .next (writeResult s x (sumByte (getV s x) nn))

/-- `LD Vx, Vy` (R124). -/
def execLdReg (x y : VReg) (s : State) : Result := .next (writeResult s x (getV s y))

/-- `OR Vx, Vy` (R125): no flag. -/
def execOrReg (x y : VReg) (s : State) : Result := .next (writeResult s x (getV s x ||| getV s y))

/-- `AND Vx, Vy` (R126): no flag. -/
def execAndReg (x y : VReg) (s : State) : Result := .next (writeResult s x (getV s x &&& getV s y))

/-- `XOR Vx, Vy` (R127): no flag. -/
def execXorReg (x y : VReg) (s : State) : Result := .next (writeResult s x (getV s x ^^^ getV s y))

/-- `ADD Vx, Vy` (R128): result, then carry. -/
def execAddReg (x y : VReg) (s : State) : Result :=
  .next (writeResultThenFlag s x (sumByte (getV s x) (getV s y)) (carryFlag (getV s x) (getV s y)))

/-- `SUB Vx, Vy` (R129): NOT borrow, then `Vx - Vy`. -/
def execSubReg (x y : VReg) (s : State) : Result :=
  .next (writeFlagThenResult s x (differenceByte (getV s x) (getV s y))
    (noBorrowFlag (getV s x) (getV s y)))

/-- `SUBN Vx, Vy` (R131): NOT borrow, then `Vy - Vx`. -/
def execSubnReg (x y : VReg) (s : State) : Result :=
  .next (writeFlagThenResult s x (differenceByte (getV s y) (getV s x))
    (noBorrowFlag (getV s y) (getV s x)))

/-- `SHR Vx` (R130): bit 0, then `Vx >> 1`; the field `y` is ignored. -/
def execShr (x _y : VReg) (s : State) : Result :=
  .next (writeFlagThenResult s x (shiftRightByte (getV s x)) (shiftedOutLow (getV s x)))

/-- `SHL Vx` (R132): bit 7, then `Vx << 1`; the field `y` is ignored. -/
def execShl (x _y : VReg) (s : State) : Result :=
  .next (writeFlagThenResult s x (shiftLeftByte (getV s x)) (shiftedOutHigh (getV s x)))

/-- `RND Vx, nn` (R133): the byte on the port `RND`, a free value, masked with `nn`. -/
def execRnd (x : VReg) (nn : Byte) (s : State) : Result :=
  .next (writeResult { s with draws := s.draws + 1 } x (Config.rndByte s.draws &&& nn))

end Sys2Proof.Machine
end

