-- ==== Sys2Proof/Machine/ControlFlow.lean ====
section
/-!
DEFINITION. Control flow (spec/40_control_flow.md): jumps, call and return, the compare-and-skip
instructions. No target is checked; a target that cannot be fetched from faults at the next step
(R110).
-/

namespace Sys2Proof.Machine

/-- `RET` (R101). -/
def execRet (s : State) : Result := .next (returnFromCall s)

/-- `JP nnn` (R102). -/
def execJp (nnn : Nat) (s : State) : Result := .next (jumpTo s (addressWord nnn))

/-- `CALL nnn` (R100). -/
def execCall (nnn : Nat) (s : State) : Result := .next (callTo s (addressWord nnn))

/-- `JP V0, nnn` (R109). -/
def execJpV0 (nnn : Nat) (s : State) : Result := .next (jumpTo s (jumpV0Target s nnn))

/-- `SE Vx, nn` (R103). -/
def execSeImm (x : VReg) (nn : Byte) (s : State) : Result := .next (skipIf s (getV s x == nn))

/-- `SNE Vx, nn` (R104). -/
def execSneImm (x : VReg) (nn : Byte) (s : State) : Result := .next (skipIf s (getV s x != nn))

/-- `SE Vx, Vy` (R105). -/
def execSeReg (x y : VReg) (s : State) : Result := .next (skipIf s (getV s x == getV s y))

/-- `SNE Vx, Vy` (R106). -/
def execSneReg (x y : VReg) (s : State) : Result := .next (skipIf s (getV s x != getV s y))

end Sys2Proof.Machine
end

