-- ==== Sys2Proof/Machine/Display.lean ====
section
/-!
DEFINITION. Display instructions (spec/43_display.md): `CLS` and `DRW`, the only two that touch the
framebuffer and the dirty flag (R29, R30).
-/

namespace Sys2Proof.Machine

/-- The pixel `FB[row * 64 + col]` (R29). -/
def pixel (fb : Framebuffer) (row : Fin 32) (col : Fin 64) : Bool := fb[row.val].getLsbD col.val

/-- `FB[k]` in the flat numbering of R29, `k = row * 64 + col`. -/
def fbCell (fb : Framebuffer) (k : Fin 2048) : Bool :=
  pixel fb ⟨k.val / 64, by omega⟩ ⟨k.val % 64, by omega⟩

/-- `FB[row * 64 + col] <- FB[row * 64 + col] ^ 1`. -/
def togglePixel (fb : Framebuffer) (row : Fin 32) (col : Fin 64) : Framebuffer :=
  fb.set row.val (fb[row.val] ^^^ BitVec.twoPow 64 col.val)

/-- Sprite column `c` of a sprite byte: bit 7 is the leftmost column (R151; decision D5, UNVERIFIED,
log 5). -/
def spriteBit (b : Byte) (c : Nat) : Bool := b.getLsbD (7 - c)

/-- The screen row of sprite row `r`: `(vy + r) mod 32` (R151). -/
def spriteRow (vy : Byte) (r : Nat) : Fin 32 := Fin.ofNat 32 (vy.toNat + r)

/-- The screen column of sprite column `c`: `(vx + c) mod 64` (R151). -/
def spriteCol (vx : Byte) (c : Nat) : Fin 64 := Fin.ofNat 64 (vx.toNat + c)

/-- Toggle one pixel, remembering whether it was 1 (the collision of R151). -/
def drawPixel (p : Framebuffer × Bool) (row : Fin 32) (col : Fin 64) : Framebuffer × Bool :=
  (togglePixel p.1 row col, p.2 || pixel p.1 row col)

/-- The inner loop of R151: the first `k` columns of one sprite byte. -/
def drawRow (vx : Byte) (row : Fin 32) (b : Byte) (p : Framebuffer × Bool) (k : Nat) :
    Framebuffer × Bool :=
  (List.range k).foldl
    (fun q c => if spriteBit b c then drawPixel q row (spriteCol vx c) else q) p

/-- The outer loop of R151: the first `n` sprite rows, read from memory at `I`. -/
def drawSprite (s : State) (vx vy : Byte) (p : Framebuffer × Bool) (n : Nat) :
    Framebuffer × Bool :=
  (List.range n).foldl
    (fun q r => drawRow vx (spriteRow vy r) (byteAt s (effectiveAddress s r)) q
      Config.spriteWidth) p

/-- The writes of `DRW` once the sprite has been drawn: framebuffer, `VF`, `DIRTY`, `PC` (R151). -/
def finishDraw (s : State) (p : Framebuffer × Bool) : State :=
  next2 (setV { s with fb := p.1, dirty := true } vf (bitByte p.2))

/-- `CLS` (R150). -/
def execCls (s : State) : Result :=
  .next (next2 { s with fb := Vector.replicate 32 0, dirty := true })

/-- `DRW Vx, Vy, n` (R151). -/
def execDrw (x y : VReg) (n : Nat) (s : State) : Result :=
  .next (withBlock s n fun t =>
    finishDraw t (drawSprite t (getV t x) (getV t y) (t.fb, false) n))

end Sys2Proof.Machine
end

