-- ==== Sys2Proof/Machine/IndexMemory.lean ====
section
/-!
DEFINITION. Index register and memory instructions (spec/42_index_memory.md). A block is checked as
a whole before any byte of it is moved (R59), and no memory instruction changes `I` (R147).
-/

namespace Sys2Proof.Machine

/-- `LD I, nnn` (R140). -/
def execLdI (nnn : Nat) (s : State) : Result := .next (writeIndex s (addressWord nnn))

/-- `ADD I, Vx` (R141): wraps at 16 bits, no flag. -/
def execAddIVx (x : VReg) (s : State) : Result := .next (writeIndex s (indexSum s.i (getV s x)))

/-- `LD F, Vx` (R142). -/
def execLdFVx (x : VReg) (s : State) : Result := .next (writeIndex s (fontAddress (getV s x)))

/-- Store a list of bytes at `I` and go on; the caller has checked the block. -/
def storeBlock (bs : List Byte) (s : State) : State :=
  next2 (storeBytes s (effectiveAddress s 0) bs)

/-- `LD B, Vx` (R143): three decimal digits at `I`, `I + 1`, `I + 2`. -/
def execLdBVx (x : VReg) (s : State) : Result :=
  .next (withBlock s 3 (storeBlock (bcdDigits (getV s x))))

/-- `LD [I], Vx` (R145): `V[0]` to `V[x]` to `M[I..I+x]`. -/
def execLdMemVx (x : VReg) (s : State) : Result :=
  .next (withBlock s (blockLength x) (storeBlock (registerBlock s x)))

/-- `LD Vx, [I]` (R146): `M[I..I+x]` to `V[0]` to `V[x]`. -/
def execLdVxMem (x : VReg) (s : State) : Result :=
  .next (withBlock s (blockLength x) (fun t => next2 (loadRegisterBlock t x)))

end Sys2Proof.Machine
end

