-- ==== Sys2Proof/Machine/KeysTimers.lean ====
section
/-!
DEFINITION. Key and timer instructions (spec/44_keys_timers.md). None raises an exception.
-/

namespace Sys2Proof.Machine

/-- `SKP Vx` (R160). -/
def execSkp (x : VReg) (s : State) : Result := .next (skipIf s (keyDown s (keyIndex (getV s x))))

/-- `SKNP Vx` (R161). -/
def execSknp (x : VReg) (s : State) : Result := .next (skipIf s (!keyDown s (keyIndex (getV s x))))

/-- `LD Vx, DT` (R163): the value before this step's timer phase. -/
def execLdVxDt (x : VReg) (s : State) : Result := .next (writeResult s x s.dt)

/-- `LD Vx, K` (R162): with no key down nothing changes, `PC` included, so that the next step
fetches the same instruction again. -/
def execLdVxK (x : VReg) (s : State) : Result :=
  match scanKeys s with
  | some k => .next (writeResult s x (keyByte k))
  | none => .next s

/-- `LD DT, Vx` (R164). -/
def execLdDtVx (x : VReg) (s : State) : Result := .next (next2 { s with dt := getV s x })

/-- `LD ST, Vx` (R165). -/
def execLdStVx (x : VReg) (s : State) : Result := .next (next2 { s with st := getV s x })

end Sys2Proof.Machine
end

