-- ==== Sys2Proof/Machine/Cycle.lean ====
section
/-!
DEFINITION. The step cycle of spec/30_encoding.md R90, over the phases of Machine/Ops.lean.
-/

namespace Sys2Proof.Machine

/-- What the timer phase makes of the answer of the execute phase. -/
def finishResult : Result → Result
  | .next s => .next (finishStep s)
  | .fault f => .fault f
  | .refused r => .refused r

/-- Phases 2 to 4 of a step that fetched `op` (R90). -/
def runOpcode (s : State) (op : Word) : Result :=
  match decode op with
  | .ok i => finishResult (exec i s)
  | .error _ => .next (finishStep (unknownOpcode s op))

/-- A step of a core that is not halted (R90). -/
def runStep (s : State) : Result :=
  match fetchOpcode s with
  | some op => runOpcode s op
  | none => .next (raiseFetch s)

/-- One `STEP` event: a halted core does nothing (R90, R173). -/
def stepCycle (s : State) : Result :=
  if halted s then .next s else runStep (clearOutputs s)

end Sys2Proof.Machine
end

