-- ==== Sys2Proof/Machine/Step.lean ====
section
/-!
DEFINITION. One step of the machine (the event `STEP` of spec/00_scope.md R7), and the state whose
next step runs a given instruction.
-/

namespace Sys2Proof.Machine

/-- One `step()` (R6, R90). -/
def step (s : State) : Host.Outcome State Fault Refusal := stepCycle s

/-- `s` with an instruction, given as the opcode table numbers its bits, where `step` fetches its
next one (log 7). -/
def State.withFetchWord (s : State) (nbits w : Nat) : State := placeOpcode s (tableOpcode nbits w)

end Sys2Proof.Machine
end

