-- ==== Sys2Proof/Machine/HostPorts.lean ====
section
/-!
DEFINITION. What the host can do to the CORE between steps (spec/00_scope.md R7, spec/
60_exceptions.md R186, spec/70_reset_and_hazards.md R200, R203, R204): the input ports `RESET`,
`LOAD`, `STEP`, `KEYS`, `DIRTY_ACK`. The port `RND` is `Config.rndByte`; the output ports are the
fields `fb`, `dirty`, `tone`, `fault`, `unk` of the state. There is no move during a step (R215).
-/

namespace Sys2Proof.Machine

/-- A move of the host between two steps (R7). -/
inductive HostEvent where
  /-- `RESET` -/
  | reset
  /-- `LOAD(rom)` -/
  | load (rom : List Byte)
  /-- `STEP` -/
  | step
  /-- the input source writes one level of `KEYS` -/
  | key (k : Fin 16) (pressed : Bool)
  /-- `DIRTY_ACK` -/
  | dirtyAck
  deriving DecidableEq, Repr

/-- The CORE with the host's place in the boot sequence of R204. -/
structure System where
  /-- the CORE -/
  core : State
  /-- `RESET` has been issued and neither `LOAD` nor `STEP` since: the one position where `LOAD` has a
  move (R204; log 6) -/
  loadOpen : Bool
  deriving DecidableEq, Repr

/-- The system directly after construction or `RESET`, with a given `FONT_ROM` (R200, R204). -/
def System.resetWith (font : FontRom) : System := ⟨State.resetWith font, true⟩

/-- What the host's moves answer. -/
abbrev HostResult := Host.Outcome System Fault Refusal

/-- `RESET` (R200): every piece of state takes its reset value, in any state, halted or not. The
parameter `FONT_ROM` is not state, and the sequence of `RND` bytes is the environment's and goes on
(log 1, log 17). -/
def resetPort (s : State) : State := { State.resetWith s.font with draws := s.draws }

/-- `LOAD(rom)` (R203): copy the bytes to 0x200 upward, or, if they are more than 3584, copy nothing
and latch `RomTooLarge` (R177). -/
def loadRom (s : State) (rom : List Byte) : State :=
  if rom.length ≤ Config.romMax then storeBytes s Config.progBase rom else raise s .romTooLarge 0

/-- `LOAD` once, directly after `RESET` (R204); it has no move anywhere else. -/
def loadPort (y : System) (rom : List Byte) : HostResult :=
  if y.loadOpen then .next ⟨loadRom y.core rom, false⟩ else .refused .loadNotAfterReset

/-- `STEP` (R90); no `LOAD` follows it without a `RESET` (R204). -/
def stepPort (y : System) : HostResult :=
  match Sys2Proof.Machine.step y.core with
  | .next t => .next ⟨t, false⟩
  | .fault f => .fault f
  | .refused r => .refused r

/-- A host write to `KEYS[k]` (R31, R66): visible to the next step, last writer wins. -/
def keyPort (s : State) (k : Fin 16) (pressed : Bool) : State :=
  { s with keys := s.keys.set k.val pressed }

/-- `DIRTY_ACK` (R30): clears the dirty flag. -/
def dirtyAckPort (s : State) : State := { s with dirty := false }

/-- One move of the host. -/
def hostMove (e : HostEvent) (y : System) : HostResult :=
  match e with
  | .reset => .next ⟨resetPort y.core, true⟩
  | .load rom => loadPort y rom
  | .step => stepPort y
  | .key k pressed => .next { y with core := keyPort y.core k pressed }
  | .dirtyAck => .next { y with core := dirtyAckPort y.core }

end Sys2Proof.Machine
end

