-- ==== Sys2Proof/Safety.lean ====
section
/-!
DEFINITION. What a safe run is, and the invariant of the machine. "A claim about a program takes
`FAULT.code = 0` throughout as what it must establish" (spec/60_exceptions.md R173).
-/

namespace Sys2Proof.Machine

/-- The core is not halted. -/
abbrev Running (s : State) : Prop := s.fault = none

/-- `n` steps from `s` without a fatal fault. -/
def SafeRun (n : Nat) (s : State) : Prop :=
  ∀ k ≤ n, ∃ t, Sys2Proof.core.run k s = .next t ∧ Running t

/-- What a latched fault says of the state it was latched in. The state has not changed since (R173),
so it still shows the condition of R170 and the information R170 gives: the fetch address, the lowest
out-of-range address of a block of at most 16 bytes at `I`, or the stack pointer. -/
def FaultShowsItsCause (s : State) (f : FaultReport) : Prop :=
  match f.cause with
  | .fetchOutOfRange => 0xFFF ≤ s.pc.toNat ∧ f.info.toNat = s.pc.toNat
  | .dataOutOfRange => 0xFFF < s.i.toNat + 15 ∧ f.info.toNat = max s.i.toNat 0x1000
  | .stackOverflow => s.sp.val = 16 ∧ f.info.toNat = 16
  | .stackUnderflow => s.sp.val = 0 ∧ f.info.toNat = 0
  | .romTooLarge => f.info.toNat = 0

/-- The invariant every step and every host move keeps. -/
structure MachineInv (s : State) : Prop where
  /-- memory is in its canonical form, inside the 4096 bytes -/
  memory : MemWf s
  /-- `PC` never passes 0x10FE, the largest value of R23 -/
  pc_bound : s.pc.toNat ≤ 0x10FE
  /-- every call-stack entry, live or dead, is an address something was fetched from, or 0 (R25) -/
  stack_bound : ∀ k : Fin 16, s.stack[k.val].toNat ≤ 0xFFE
  /-- a latched fault still shows its cause, and the outputs are 0 while halted (R173) -/
  fault_shown : ∀ f, s.fault = some f → FaultShowsItsCause s f ∧ s.tone = false ∧ s.unk = none
  /-- `TONE` is the step in which `ST` went from 1 to 0 (R184) -/
  tone_at_zero : s.tone = true → s.st = 0
  /-- `UNK` reports a word that is no instruction (R172) -/
  unk_unknown : ∀ u, s.unk = some u → ∃ e, decode u.op = .error e

/-- The invariant of the CORE and the host's place in the boot sequence: where `LOAD` has a move, the
CORE is as `RESET` leaves it, but for `KEYS`, which the host may have moved since (R204). -/
structure SystemInv (y : System) : Prop where
  core : MachineInv y.core
  fresh : y.loadOpen = true →
    y.core = { State.resetWith y.core.font with keys := y.core.keys, draws := y.core.draws }

end Sys2Proof.Machine
end

