-- ==== Sys2Proof/Certificates/Slice0/Obligations.lean ====
section
/-!
DEFINITION. The statements about the model. Each docstring names the rule of spec/ it formalises;
"model's choice" marks a clause that rests on an entry of notes/assumptions.
-/

namespace Sys2Proof.Claims

open Sys2Proof.Machine

/-! ### What the statements are written in -/

/-- The 16-bit word `w` is the encoding of `i`. -/
def Decodes (w : Nat) (i : Instr) : Prop := decode (BitVec.ofNat 16 w) = .ok i

/-- Executing `i` in `s` completes, in a state with the given property. -/
def Answers (i : Instr) (s : State) (post : State → Prop) : Prop :=
  ∃ t, exec i s = .next t ∧ post t

/-- Every byte of memory reads as before. -/
def SameMemory (s t : State) : Prop := ∀ a, byteAt t a = byteAt s a

/-- Nothing but `PC` may differ. -/
def OnlyPc (s t : State) : Prop := t = { s with pc := t.pc } ∧ SameMemory s t

/-- Nothing but `PC` and the V registers may differ. -/
def OnlyPcAndV (s t : State) : Prop := t = { s with pc := t.pc, v := t.v } ∧ SameMemory s t

/-- `V[x] <- b ; PC <- PC + 2` and nothing else. -/
def WritesRegister (s t : State) (x : VReg) (b : Byte) : Prop :=
  OnlyPcAndV s t ∧ t.pc = s.pc + 2 ∧ ∀ r, getV t r = if r = x then b else getV s r

/-- `I <- w ; PC <- PC + 2` and nothing else. -/
def WritesIndex (s t : State) (w : Nat) : Prop :=
  t = { s with pc := s.pc + 2, i := t.i } ∧ SameMemory s t ∧ t.i.toNat = w

/-- `s` with the fatal fault latched and the outputs 0, everything else as it was (R173). -/
def Faulted (s : State) (c : FaultCause) (info : Nat) : State :=
  { s with fault := some ⟨c, BitVec.ofNat 17 info⟩, tone := false, unk := none }

/-- One decrement of a timer, "if currently non-zero" (R183). -/
def ticked (d : Byte) : Byte := if d = 0 then 0 else d - 1

/-- The state after the timer phase of R183. -/
def Ticked (s : State) : State :=
  { s with tone := decide (s.st = 1), dt := ticked s.dt, st := ticked s.st }

/-- A function on the next state of an answer. -/
def onNext (f : State → State) : Result → Result
  | .next s => .next (f s)
  | .fault r => .fault r
  | .refused r => .refused r

/-- The opcode of R54 at `PC`, `(b0 << 8) | b1`, as a number. -/
def opcodeAt (s : State) : Nat :=
  (byteAt s s.pc.toNat).toNat * 256 + (byteAt s (s.pc.toNat + 1)).toNat

/-- Framebuffer cell `k` is under a 1 bit of the `n`-row sprite at `I` drawn at `(vx, vy)`: bit
`7 - c` of the byte at `I + r` covers cell `((vy + r) mod 32) * 64 + (vx + c) mod 64` (R151). -/
def Covered (s : State) (vx vy : Byte) (n : Nat) (k : Fin 2048) : Prop :=
  ∃ r, r < n ∧ ∃ c, c < 8 ∧ k.val = (vy.toNat + r) % 32 * 64 + (vx.toNat + c) % 64 ∧
    (byteAt s (s.i.toNat + r)).getLsbD (7 - c) = true

/-- The length of the block at `I` an instruction moves, 0 if it moves none (R57, R174). -/
def blockLengthOf : Instr → Nat
  | .drw _ _ n => n
  | .ldBVx _ => 3
  | .ldMemVx x | .ldVxMem x => x.val + 1
  | .cls | .ret | .jp _ | .call _ | .seImm _ _ | .sneImm _ _ | .seReg _ _ | .sneReg _ _ => 0
  | .ldImm _ _ | .addImm _ _ | .ldReg _ _ | .orReg _ _ | .andReg _ _ | .xorReg _ _ => 0
  | .addReg _ _ | .subReg _ _ | .shr _ _ | .subnReg _ _ | .shl _ _ | .rnd _ _ => 0
  | .ldI _ | .jpV0 _ | .skp _ | .sknp _ | .ldVxDt _ | .ldVxK _ | .ldDtVx _ | .ldStVx _ => 0
  | .addIVx _ | .ldFVx _ => 0

/-- The length of the block at `I` an instruction stores to memory, 0 if it stores nothing (R36: `w`
in the column M). -/
def storeLengthOf : Instr → Nat
  | .ldBVx _ => 3
  | .ldMemVx x => x.val + 1
  | .drw _ _ _ | .ldVxMem _ => 0
  | .cls | .ret | .jp _ | .call _ | .seImm _ _ | .sneImm _ _ | .seReg _ _ | .sneReg _ _ => 0
  | .ldImm _ _ | .addImm _ _ | .ldReg _ _ | .orReg _ _ | .andReg _ _ | .xorReg _ _ => 0
  | .addReg _ _ | .subReg _ _ | .shr _ _ | .subnReg _ _ | .shl _ _ | .rnd _ _ => 0
  | .ldI _ | .jpV0 _ | .skp _ | .sknp _ | .ldVxDt _ | .ldVxK _ | .ldDtVx _ | .ldStVx _ => 0
  | .addIVx _ | .ldFVx _ => 0

/-- Byte `k` of the block the two storing instructions store: hundreds, tens, ones of `Vx` (R143), or
`V[k]` (R145). -/
def storedByte (i : Instr) (s : State) (k : Nat) : Byte :=
  match i with
  | .ldBVx x =>
    if k = 0 then BitVec.ofNat 8 ((getV s x).toNat / 100)
    else if k = 1 then BitVec.ofNat 8 ((getV s x).toNat / 10 % 10)
    else BitVec.ofNat 8 ((getV s x).toNat % 10)
  | .ldMemVx _ => getV s (Fin.ofNat 16 k)
  | .drw _ _ _ | .ldVxMem _ => 0
  | .cls | .ret | .jp _ | .call _ | .seImm _ _ | .sneImm _ _ | .seReg _ _ | .sneReg _ _ => 0
  | .ldImm _ _ | .addImm _ _ | .ldReg _ _ | .orReg _ _ | .andReg _ _ | .xorReg _ _ => 0
  | .addReg _ _ | .subReg _ _ | .shr _ _ | .subnReg _ _ | .shl _ _ | .rnd _ _ => 0
  | .ldI _ | .jpV0 _ | .skp _ | .sknp _ | .ldVxDt _ | .ldVxK _ | .ldDtVx _ | .ldStVx _ => 0
  | .addIVx _ | .ldFVx _ => 0

/-- The fault an instruction raises of its own, by the conditions of R174 and the information of
R170. -/
def ownFault (i : Instr) (s : State) : Option FaultReport :=
  match i with
  | .call _ => if s.sp.val = 16 then some ⟨.stackOverflow, 16⟩ else none
  | .ret => if s.sp.val = 0 then some ⟨.stackUnderflow, 0⟩ else none
  | .drw _ _ n =>
    if 1 ≤ n ∧ 0x1000 < s.i.toNat + n
    then some ⟨.dataOutOfRange, BitVec.ofNat 17 (max s.i.toNat 0x1000)⟩ else none
  | .ldBVx _ =>
    if 0xFFD < s.i.toNat
    then some ⟨.dataOutOfRange, BitVec.ofNat 17 (max s.i.toNat 0x1000)⟩ else none
  | .ldMemVx x | .ldVxMem x =>
    if 0xFFF < s.i.toNat + x.val
    then some ⟨.dataOutOfRange, BitVec.ofNat 17 (max s.i.toNat 0x1000)⟩ else none
  | .cls | .jp _ | .seImm _ _ | .sneImm _ _ | .seReg _ _ | .sneReg _ _ | .jpV0 _ => none
  | .ldImm _ _ | .addImm _ _ | .ldReg _ _ | .orReg _ _ | .andReg _ _ | .xorReg _ _ => none
  | .addReg _ _ | .subReg _ _ | .shr _ _ | .subnReg _ _ | .shl _ _ | .rnd _ _ => none
  | .ldI _ | .skp _ | .sknp _ | .ldVxDt _ | .ldVxK _ | .ldDtVx _ | .ldStVx _ => none
  | .addIVx _ | .ldFVx _ => none

/-- `PC` after an instruction that raises no fault, the table of R23. -/
def pcAfter (i : Instr) (s : State) : Word :=
  match i with
  | .ret => s.stack.toList.getD (s.sp.val - 1) 0 + 2
  | .jp nnn | .call nnn => BitVec.ofNat 16 nnn
  | .jpV0 nnn => BitVec.ofNat 16 (nnn + (getV s 0).toNat)
  | .seImm x nn => if getV s x = nn then s.pc + 4 else s.pc + 2
  | .sneImm x nn => if getV s x ≠ nn then s.pc + 4 else s.pc + 2
  | .seReg x y => if getV s x = getV s y then s.pc + 4 else s.pc + 2
  | .sneReg x y => if getV s x ≠ getV s y then s.pc + 4 else s.pc + 2
  | .skp x =>
    if s.keys.toList.getD ((getV s x).toNat % 16) false = true then s.pc + 4 else s.pc + 2
  | .sknp x =>
    if s.keys.toList.getD ((getV s x).toNat % 16) false = false then s.pc + 4 else s.pc + 2
  | .ldVxK _ => if ∃ k : Fin 16, s.keys[k.val] = true then s.pc + 2 else s.pc
  | .cls | .ldImm _ _ | .addImm _ _ | .ldReg _ _ | .orReg _ _ | .andReg _ _ => s.pc + 2
  | .xorReg _ _ | .addReg _ _ | .subReg _ _ | .shr _ _ | .subnReg _ _ | .shl _ _ => s.pc + 2
  | .rnd _ _ | .ldI _ | .drw _ _ _ | .ldVxDt _ | .ldDtVx _ | .ldStVx _ => s.pc + 2
  | .addIVx _ | .ldFVx _ | .ldBVx _ | .ldMemVx _ | .ldVxMem _ => s.pc + 2

/-- The V registers an instruction may write: its destination, `VF` for the six flag writers of
R34, and `V[0]` to `V[x]` for the block load. -/
def mayWriteV (i : Instr) (r : VReg) : Bool :=
  match i with
  | .ldImm x _ | .addImm x _ | .ldReg x _ | .orReg x _ | .andReg x _ | .xorReg x _ => r == x
  | .rnd x _ | .ldVxDt x | .ldVxK x => r == x
  | .addReg x _ | .subReg x _ | .shr x _ | .subnReg x _ | .shl x _ => r == x || r == 15
  | .drw _ _ _ => r == 15
  | .ldVxMem x => decide (r.val ≤ x.val)
  | .cls | .ret | .jp _ | .call _ | .seImm _ _ | .sneImm _ _ | .seReg _ _ | .sneReg _ _ => false
  | .ldI _ | .jpV0 _ | .skp _ | .sknp _ | .ldDtVx _ | .ldStVx _ | .addIVx _ | .ldFVx _ => false
  | .ldBVx _ | .ldMemVx _ => false

/-- The V registers an instruction reads (R36: `r` in the column V). -/
def readsV (i : Instr) (r : VReg) : Bool :=
  match i with
  | .seImm x _ | .sneImm x _ | .addImm x _ | .shr x _ | .shl x _ => r == x
  | .skp x | .sknp x | .ldDtVx x | .ldStVx x | .addIVx x | .ldFVx x | .ldBVx x => r == x
  | .seReg x y | .sneReg x y | .orReg x y | .andReg x y | .xorReg x y => r == x || r == y
  | .addReg x y | .subReg x y | .subnReg x y | .drw x y _ => r == x || r == y
  | .ldReg _ y => r == y
  | .jpV0 _ => r == 0
  | .ldMemVx x => decide (r.val ≤ x.val)
  | .cls | .ret | .jp _ | .call _ | .ldImm _ _ | .ldI _ | .rnd _ _ => false
  | .ldVxDt _ | .ldVxK _ | .ldVxMem _ => false

/-- A row of the opcode table of R86: the match and mask words, and the instruction with the fields
of R81 taken from the opcode. -/
structure Row where
  pattern : Word
  mask : Word
  instr : Word → Instr

/-- `x = op[11:8]` -/
def opX (op : Word) : VReg := Fin.ofNat 16 (op.extractLsb 11 8).toNat
/-- `y = op[7:4]` -/
def opY (op : Word) : VReg := Fin.ofNat 16 (op.extractLsb 7 4).toNat
/-- `n = op[3:0]` -/
def opN (op : Word) : Nat := (op.extractLsb 3 0).toNat
/-- `nn = op[7:0]` -/
def opNN (op : Word) : Byte := op.extractLsb 7 0
/-- `nnn = op[11:0]` -/
def opNNN (op : Word) : Nat := (op.extractLsb 11 0).toNat

/-- The 34 rows of R86, in its order. -/
def opcodeRows : List Row :=
  [⟨0x00E0, 0xFFFF, fun _ => .cls⟩,
   ⟨0x00EE, 0xFFFF, fun _ => .ret⟩,
   ⟨0x1000, 0xF000, fun op => .jp (opNNN op)⟩,
   ⟨0x2000, 0xF000, fun op => .call (opNNN op)⟩,
   ⟨0x3000, 0xF000, fun op => .seImm (opX op) (opNN op)⟩,
   ⟨0x4000, 0xF000, fun op => .sneImm (opX op) (opNN op)⟩,
   ⟨0x5000, 0xF00F, fun op => .seReg (opX op) (opY op)⟩,
   ⟨0x6000, 0xF000, fun op => .ldImm (opX op) (opNN op)⟩,
   ⟨0x7000, 0xF000, fun op => .addImm (opX op) (opNN op)⟩,
   ⟨0x8000, 0xF00F, fun op => .ldReg (opX op) (opY op)⟩,
   ⟨0x8001, 0xF00F, fun op => .orReg (opX op) (opY op)⟩,
   ⟨0x8002, 0xF00F, fun op => .andReg (opX op) (opY op)⟩] ++
  [⟨0x8003, 0xF00F, fun op => .xorReg (opX op) (opY op)⟩,
   ⟨0x8004, 0xF00F, fun op => .addReg (opX op) (opY op)⟩,
   ⟨0x8005, 0xF00F, fun op => .subReg (opX op) (opY op)⟩,
   ⟨0x8006, 0xF00F, fun op => .shr (opX op) (opY op)⟩,
   ⟨0x8007, 0xF00F, fun op => .subnReg (opX op) (opY op)⟩,
   ⟨0x800E, 0xF00F, fun op => .shl (opX op) (opY op)⟩,
   ⟨0x9000, 0xF00F, fun op => .sneReg (opX op) (opY op)⟩,
   ⟨0xA000, 0xF000, fun op => .ldI (opNNN op)⟩,
   ⟨0xB000, 0xF000, fun op => .jpV0 (opNNN op)⟩,
   ⟨0xC000, 0xF000, fun op => .rnd (opX op) (opNN op)⟩,
   ⟨0xD000, 0xF000, fun op => .drw (opX op) (opY op) (opN op)⟩] ++
  [⟨0xE09E, 0xF0FF, fun op => .skp (opX op)⟩,
   ⟨0xE0A1, 0xF0FF, fun op => .sknp (opX op)⟩,
   ⟨0xF007, 0xF0FF, fun op => .ldVxDt (opX op)⟩,
   ⟨0xF00A, 0xF0FF, fun op => .ldVxK (opX op)⟩,
   ⟨0xF015, 0xF0FF, fun op => .ldDtVx (opX op)⟩,
   ⟨0xF018, 0xF0FF, fun op => .ldStVx (opX op)⟩,
   ⟨0xF01E, 0xF0FF, fun op => .addIVx (opX op)⟩,
   ⟨0xF029, 0xF0FF, fun op => .ldFVx (opX op)⟩,
   ⟨0xF033, 0xF0FF, fun op => .ldBVx (opX op)⟩,
   ⟨0xF055, 0xF0FF, fun op => .ldMemVx (opX op)⟩,
   ⟨0xF065, 0xF0FF, fun op => .ldVxMem (opX op)⟩]

end Sys2Proof.Claims

open Sys2Proof Sys2Proof.Machine Sys2Proof.Claims

/-! ### Reset and the host's ports -/

/-- R40: every piece of state after `RESET`, for every `FONT_ROM`; the reset state of the model has
the default one. -/
def Obligations.ResetGivesEveryListedValue : Prop :=
  State.reset = State.resetWith defaultFontRom ∧
  ∀ (font : FontRom) (s : State), s = State.resetWith font →
    (∀ r, getV s r = 0) ∧ s.pc = 0x200 ∧ s.i = 0 ∧ (∀ k : Fin 16, s.stack[k.val] = 0) ∧
    s.sp.val = 0 ∧ s.dt = 0 ∧ s.st = 0 ∧ (∀ k, fbCell s.fb k = false) ∧ s.dirty = false ∧
    (∀ k : Fin 16, s.keys[k.val] = false) ∧ s.fault = none ∧ s.tone = false ∧ s.unk = none ∧
    (∀ k : Fin 80, byteAt s k.val = font[k.val]) ∧
    ∀ a, 80 ≤ a → a < 4096 → byteAt s a = 0

/-- R200: `RESET` in any state, halted or not, gives the reset state, and a step after it fetches at
0x200 (R201). That the counter of `RND` bytes is the environment's and survives (log 1), and that
the parameter `FONT_ROM` is a field of the state (log 17), are the model's choices. -/
def Obligations.ResetWorksInEveryState : Prop :=
  ∀ y : System, ∃ z, hostMove .reset y = .next z ∧
    z.core = { State.resetWith y.core.font with draws := y.core.draws } ∧
    z.core.fault = none ∧ z.core.pc = 0x200 ∧
    ∀ y' z', hostMove .reset y' = .next z' → y'.core.font = y.core.font →
      y'.core.draws = y.core.draws → z' = z

/-- R203, R177: `LOAD(rom)` directly after `RESET`. A ROM of at most 3584 bytes is copied to 0x200
upward and nothing else changes; a larger one copies nothing and latches `RomTooLarge`. That memory
has a canonical form and keeps it (log 8), and how the position after `RESET` is told (log 6), are
the model's choices. -/
def Obligations.LoadCopiesTheRomOrFaults : Prop :=
  ∀ (y : System) (rom : List Byte), MemWf y.core → y.loadOpen = true →
    (rom.length ≤ 3584 → ∃ z, hostMove (.load rom) y = .next z ∧
      z.core = { y.core with mem := z.core.mem } ∧ MemWf z.core ∧
      ∀ a, byteAt z.core a =
        if 0x200 ≤ a ∧ a < 0x200 + rom.length then rom.getD (a - 0x200) 0 else byteAt y.core a) ∧
    (3584 < rom.length →
      ∃ z, hostMove (.load rom) y = .next z ∧ z.core = Faulted y.core .romTooLarge 0)

/-- R204: `LOAD` is specified only once, directly after `RESET`; "a model has no `LOAD` move in any
other state". It is refused wherever it is not open; `RESET` opens it; a `LOAD`, failed or not, of any
ROM, and a step close it; and no move but `RESET` opens it again. That key writes and `DIRTY_ACK`
leave it as it is, is the model's choice (log 6). -/
def Obligations.LoadHasNoOtherMove : Prop :=
  (∀ (y : System) (rom : List Byte), y.loadOpen = false →
    hostMove (.load rom) y = .refused .loadNotAfterReset) ∧
  (∀ y z, hostMove .reset y = .next z → z.loadOpen = true) ∧
  (∀ y z rom, hostMove (.load rom) y = .next z → z.loadOpen = false) ∧
  (∀ y z, hostMove .step y = .next z → z.loadOpen = false) ∧
  (∀ e y z, hostMove e y = .next z → e ≠ .reset → y.loadOpen = false → z.loadOpen = false) ∧
  (∀ y k p, ∃ z, hostMove (.key k p) y = .next z ∧ z.loadOpen = y.loadOpen) ∧
  ∀ y, ∃ z, hostMove .dirtyAck y = .next z ∧ z.loadOpen = y.loadOpen

/-- From R31, R66 and R30: what the host's other two inputs do: a key write changes that level only
and the last of two writes to a key counts; `DIRTY_ACK` clears `DIRTY` only. -/
def Obligations.HostInputsChangeOnlyTheirOwnState : Prop :=
  ∀ (y : System) (k : Fin 16) (p q : Bool),
    (∃ z, hostMove (.key k p) y = .next z ∧ z.core = { y.core with keys := z.core.keys } ∧
      (∀ j : Fin 16, z.core.keys[j.val] = if j = k then p else y.core.keys[j.val]) ∧
      hostMove (.key k q) z = hostMove (.key k q) y) ∧
    ∃ z, hostMove .dirtyAck y = .next z ∧ z.core = { y.core with dirty := false }

/-- From R30 and R31: no step changes `KEYS`, and none clears `DIRTY`. -/
def Obligations.StepLeavesKeysAndNeverClearsDirty : Prop :=
  ∀ s t, step s = .next t → t.keys = s.keys ∧ (s.dirty = true → t.dirty = true)

/-- From R180 and R32: a halted core stays as it is under any number of steps, and no host move but
`RESET` clears `FAULT`. -/
def Obligations.OnlyResetLeavesTheHaltedState : Prop :=
  (∀ (n : Nat) (s : State), s.fault ≠ none → core.run n s = .next s) ∧
  (∀ (e : HostEvent) (y z : System), y.core.fault ≠ none → hostMove e y = .next z → e ≠ .reset →
    z.core.fault ≠ none ∧ (y.loadOpen = false → z.core.fault = y.core.fault))

/-- The parameter `FONT_ROM` is not state (R8): no step and no move of the host changes the field that
holds it (log 17). -/
def Obligations.FontParameterNeverChanges : Prop :=
  (∀ s t, step s = .next t → t.font = s.font) ∧
  ∀ (e : HostEvent) (y z : System), hostMove e y = .next z → z.core.font = y.core.font

/-! ### Encoding -/

/-- R80 to R88: decoding the encoding of a well-formed instruction gives it back, every operand at
every value; on bytes, the two bytes are consumed and no more. -/
def Obligations.DecodeInvertsEncode : Prop :=
  ∀ i : Instr, i.WellFormed → decode (encode i) = .ok i ∧
    ∀ rest, decodeBytes (encodeBytes i ++ rest) = .ok (i, rest)

/-- Every word that decodes is the encoding of what it decodes to, which is well formed. -/
def Obligations.EncodeInvertsDecode : Prop :=
  ∀ (op : Word) (i : Instr), decode op = .ok i → i.WellFormed ∧ encode i = op

/-- R86 (with the fields of R81): a word that matches a row decodes to that row's instruction, a
word that matches none is no instruction, and no word matches two rows. -/
def Obligations.DecodeFollowsTheOpcodeTable : Prop :=
  opcodeRows.length = 34 ∧
  (∀ op : Word, ∀ row ∈ opcodeRows, op &&& row.mask = row.pattern →
    decode op = .ok (row.instr op)) ∧
  (∀ (op : Word) (i : Instr), decode op = .ok i →
    ∃ row ∈ opcodeRows, op &&& row.mask = row.pattern) ∧
  opcodeRows.Pairwise fun a b =>
    ∀ op : Word, ¬ (op &&& a.mask = a.pattern ∧ op &&& b.mask = b.pattern)

/-- Words written out from the patterns of R86 (spec/95_test_vectors.md DV1 to DV24). -/
def Obligations.WrittenWordsDecode : Prop :=
  Decodes 0x00E0 .cls ∧ Decodes 0x00EE .ret ∧ Decodes 0x1ABC (.jp 0xABC) ∧
  Decodes 0x2FFE (.call 0xFFE) ∧ Decodes 0x3A7F (.seImm 10 0x7F) ∧ Decodes 0x5CD0 (.seReg 12 13) ∧
  Decodes 0x8126 (.shr 1 2) ∧ Decodes 0x8127 (.subnReg 1 2) ∧ Decodes 0xC5F0 (.rnd 5 0xF0) ∧
  Decodes 0xDABC (.drw 10 11 12) ∧ Decodes 0xEFA1 (.sknp 15) ∧ Decodes 0xF755 (.ldMemVx 7) ∧
  Decodes 0xF865 (.ldVxMem 8) ∧
  decode 0x0000 = .error (.unknownOpcode 0x0000) ∧ decode 0x5CD1 = .error (.unknownOpcode 0x5CD1) ∧
  decode 0x8128 = .error (.unknownOpcode 0x8128) ∧ decode 0x9AB8 = .error (.unknownOpcode 0x9AB8) ∧
  decode 0xE09D = .error (.unknownOpcode 0xE09D) ∧ decode 0xF000 = .error (.unknownOpcode 0xF000)

/-! ### The step cycle -/

/-- R90: the four things a step can do. A halted core does nothing; a fetch with `PC + 1` beyond
0xFFF latches `FetchOutOfRange(PC)`; an unknown opcode is reported and skipped; a decoded
instruction is executed, on a state whose outputs are cleared, and the timer phase follows, unless
it raised a fault: then the step ends with nothing changed but the latch. -/
def Obligations.StepFollowsTheCycle : Prop :=
  ∀ s : State,
    (s.fault ≠ none → step s = .next s) ∧
    (s.fault = none → 0xFFF < s.pc.toNat + 1 →
      step s = .next (Faulted s .fetchOutOfRange s.pc.toNat)) ∧
    (s.fault = none → s.pc.toNat + 1 ≤ 0xFFF →
      (∀ i, ¬ Decodes (opcodeAt s) i) →
      step s = .next (Ticked { s with
        pc := s.pc + 2, unk := some ⟨BitVec.ofNat 16 (opcodeAt s), s.pc⟩ })) ∧
    (∀ i, s.fault = none → s.pc.toNat + 1 ≤ 0xFFF → Decodes (opcodeAt s) i →
      ∃ t, exec i { s with tone := false, unk := none } = .next t ∧
        step s = .next (if t.fault = none then Ticked t else t) ∧
        (t.fault ≠ none → t = { s with fault := t.fault, tone := false, unk := none }))

/-- The step runs the placed instruction: what `withFetchWord` stores for a well-formed instruction is
read by the decoder, fetched, and executed by the very next step, the timer phase following unless it
raised a fault (model's interface, log 7). -/
def Obligations.StepRunsThePlacedInstruction : Prop :=
  ∀ (s p : State) (i : Instr), MemWf s → i.WellFormed → s.fault = none → s.pc.toNat + 1 ≤ 0xFFF →
    p = s.withFetchWord 16 (encode i).toNat →
    decodeTableWord 16 (encode i).toNat = some i ∧ p = { s with mem := p.mem } ∧
    Decodes (opcodeAt p) i ∧ fetchOpcode p = some (encode i) ∧
    ∃ t, exec i { p with tone := false, unk := none } = .next t ∧
      step p = .next (if t.fault = none then Ticked t else t)

/-- R172: the step of an unknown opcode, and that `UNK` is 0 after any other step of a running core.
-/
def Obligations.UnknownOpcodeIsReportedAndSkipped : Prop :=
  (∀ s : State, s.fault = none → s.pc.toNat + 1 ≤ 0xFFF → (∀ i, ¬ Decodes (opcodeAt s) i) →
    ∃ t, step s = .next t ∧
      t = { s with pc := s.pc + 2, unk := t.unk, tone := t.tone, dt := t.dt, st := t.st } ∧
      SameMemory s t ∧ t.unk = some ⟨BitVec.ofNat 16 (opcodeAt s), s.pc⟩ ∧
      (t.tone = true ↔ s.st = 1) ∧ t.dt = ticked s.dt ∧ t.st = ticked s.st) ∧
  (∀ s t : State, s.fault = none → step s = .next t →
    (0xFFF < s.pc.toNat + 1 ∨ ∃ i, Decodes (opcodeAt s) i) → t.unk = none)

/-- Decode is total (R89, which the spec marks as derived), and every step of every state answers a
next state. -/
def Obligations.EveryStepAnswersANextState : Prop :=
  (∀ op : Word, (∃ i, decode op = .ok i) ∨ decode op = .error (.unknownOpcode op)) ∧
  ∀ s, ∃ t, step s = .next t

/-- R183: the timer phase of every step. A step that faults and a
step of the halted core leave the timers alone; any other decrements both, after the execute phase,
and `TONE` is 1 iff the timer phase found `ST = 1`. -/
def Obligations.TimersTickOncePerStep : Prop :=
  ∀ s t, step s = .next t →
    ((s.fault ≠ none ∨ t.fault ≠ none) → t.dt = s.dt ∧ t.st = s.st) ∧
    (s.fault = none → t.fault = none →
      ((∀ x, ¬ Decodes (opcodeAt s) (.ldDtVx x)) → t.dt = ticked s.dt) ∧
      (∀ x, Decodes (opcodeAt s) (.ldDtVx x) → t.dt = ticked (getV s x)) ∧
      ((∀ x, ¬ Decodes (opcodeAt s) (.ldStVx x)) →
        t.st = ticked s.st ∧ (t.tone = true ↔ s.st = 1)) ∧
      (∀ x, Decodes (opcodeAt s) (.ldStVx x) →
        t.st = ticked (getV s x) ∧ (t.tone = true ↔ getV s x = 1)))

/-- The timeline of a sound-timer load (R185, which the spec marks as derived). After `LD ST, Vx`
with `Vx = a`, in a run of steps without a fault or another load, the end of step `k` has `ST = a -
1 - k`, and `TONE` is 1 in exactly the step `a - 1`. -/
def Obligations.SoundTimerLoadGivesOneTonePulse : Prop :=
  ∀ (run : Nat → State) (n : Nat) (x : VReg),
    (∀ k, k < n → step (run k) = .next (run (k + 1)) ∧ (run k).fault = none ∧
      (run (k + 1)).fault = none) →
    Decodes (opcodeAt (run 0)) (.ldStVx x) →
    (∀ k, 0 < k → k < n → ∀ y, ¬ Decodes (opcodeAt (run k)) (.ldStVx y)) →
    ∀ k, k < n →
      (run (k + 1)).st.toNat = (getV (run 0) x).toNat - 1 - k ∧
      ((run (k + 1)).tone = true ↔ (getV (run 0) x).toNat = k + 1)

/-- What R9 and R212 say of a run, made of `core.run` alone, where the host makes no move and `KEYS`
therefore stay as they are in every step, which is the model's choice of a step without input (log
12): a program stands still at a self-jump, and at `LD Vx, K` while no
key is down: any number of steps leave everything but the timers and the outputs, and the timers run
down to 0. -/
def Obligations.SelfJumpAndKeyWaitStandStill : Prop :=
  ∀ (s : State) (n : Nat), s.fault = none → s.pc.toNat + 1 ≤ 0xFFF →
    (Decodes (opcodeAt s) (.jp s.pc.toNat) ∨
      ((∃ x, Decodes (opcodeAt s) (.ldVxK x)) ∧ ∀ k : Fin 16, s.keys[k.val] = false)) →
    ∃ t, core.run n s = .next t ∧
      t = { s with dt := t.dt, st := t.st, tone := t.tone, unk := t.unk } ∧
      t.dt.toNat = s.dt.toNat - n ∧ t.st.toNat = s.st.toNat - n

/-! ### Faults -/

/-- R173: a fatal fault is precise. A step that latches one changes nothing else (the outputs are
0); a halted core does not change at all. -/
def Obligations.FatalFaultIsPrecise : Prop :=
  ∀ s t, step s = .next t →
    (s.fault ≠ none → t = s) ∧
    (s.fault = none → ∀ f, t.fault = some f →
      t = { s with fault := some f, tone := false, unk := none } ∧ SameMemory s t)

/-- Which instruction raises what, and exactly when (R174, which the spec marks as derived). -/
def Obligations.EachInstructionRaisesExactlyItsOwnFault : Prop :=
  ∀ (i : Instr) (s : State), s.fault = none →
    ∃ t, exec i s = .next t ∧ t.fault = ownFault i s

/-- R171: the stack faults. That `SP` is at most 16 in every state, reachable or not, is the model's
choice of a type for it (log 16); R171 says it of every reachable state. -/
def Obligations.StackFaultsLatchAndChangeNothing : Prop :=
  (∀ (s : State) (nnn : Nat), s.sp.val = 16 →
    exec (.call nnn) s = .next (Faulted s .stackOverflow 16)) ∧
  (∀ s : State, s.sp.val = 0 → exec .ret s = .next (Faulted s .stackUnderflow 0)) ∧
  (∀ s : State, s.sp.val ≤ 16)

/-- R59: a block access is checked as a whole. A block with an address out of range raises
`DataOutOfRange` of its lowest one and nothing is written; a `DRW` of height 0 faults for no `I`. -/
def Obligations.BlockIsCheckedBeforeAnyByteMoves : Prop :=
  (∀ (i : Instr) (s : State) (k : Nat), k < blockLengthOf i → 0xFFF < s.i.toNat + k →
    ∃ a, exec i s = .next (Faulted s .dataOutOfRange a) ∧ a = max s.i.toNat 0x1000 ∧ 0xFFF < a ∧
      (∃ j, j < blockLengthOf i ∧ a = s.i.toNat + j) ∧
      ∀ j, j < blockLengthOf i → 0xFFF < s.i.toNat + j → a ≤ s.i.toNat + j) ∧
  (∀ (x y : VReg) (s : State), s.fault = none →
    Answers (.drw x y 0) s fun t => t.fault = none ∧ t.fb = s.fb)

/-! ### The invariant -/

/-- The system directly after `RESET` meets the invariant, whatever `FONT_ROM` is. -/
def Obligations.ResetMeetsTheMachineInvariant : Prop :=
  MachineInv State.reset ∧ ∀ font, SystemInv (System.resetWith font)

/-- Every step keeps the invariant: memory stays canonical, `PC` stays at most 0x10FE and the stack
entries at most 0xFFE (R23, R25), a latched fault goes on showing its cause (R170, R173), `TONE`
only at `ST = 0` (R184), `UNK` only for a word that is no instruction (R172). -/
def Obligations.StepKeepsTheMachineInvariant : Prop :=
  ∀ s t, MachineInv s → step s = .next t → MachineInv t

/-- Every move of the host keeps the invariant of the CORE, and `LOAD` is open only where the CORE is
as `RESET` leaves it, but for `KEYS` (R204; how the position is told is the model's choice, log 6). -/
def Obligations.HostMovesKeepTheMachineInvariant : Prop :=
  ∀ (e : HostEvent) (y z : System), SystemInv y → hostMove e y = .next z → SystemInv z

/-- Two canonical memories that read the same everywhere are the same list (model's choice of how
memory is held, log 8). -/
def Obligations.CanonicalMemoryIsDeterminedByItsReads : Prop :=
  ∀ (font : FontRom) (m m' : Memory), Memory.wf font m → Memory.wf font m' →
    (∀ a, readByte font m a = readByte font m' a) → m = m'

/-! ### Whole-machine frames -/

/-- How each instruction leaves `PC` (R23, which the spec marks as derived). -/
def Obligations.PcFollowsTheTable : Prop :=
  (∀ (i : Instr) (s t : State), s.fault = none → exec i s = .next t →
    (t.fault = none → t.pc = pcAfter i s) ∧ (t.fault ≠ none → t.pc = s.pc)) ∧
  (∀ s t : State, s.fault = none → s.pc.toNat + 1 ≤ 0xFFF → (∀ i, ¬ Decodes (opcodeAt s) i) →
    step s = .next t → t.pc = s.pc + 2)

/-- The `w` entries of the access matrix (R36, which the spec marks as derived): no instruction writes
state that the matrix does not give it: a V register that is not its destination, and not `VF` unless
it is a flag writer; `I`; a byte of memory outside the block at `I` that it stores; the call stack,
but for the entry at `SP` that `CALL` writes; the timers; the framebuffer and `DIRTY`; `KEYS`. The
last clause is about the model's own field `draws` (log 1). -/
def Obligations.InstructionsWriteOnlyTheirOwnState : Prop :=
  ∀ (i : Instr) (s t : State), exec i s = .next t →
    (∀ r, mayWriteV i r = false → getV t r = getV s r) ∧
    (t.i ≠ s.i → (∃ nnn, i = .ldI nnn) ∨ (∃ x, i = .addIVx x) ∨ ∃ x, i = .ldFVx x) ∧
    (storeLengthOf i = 0 → SameMemory s t) ∧
    (MemWf s → ∀ a, (∀ k, k < storeLengthOf i → a ≠ effectiveAddress s k) →
      byteAt t a = byteAt s a) ∧
    (∀ k : Fin 16, ((∃ nnn, i = .call nnn) → k.val ≠ s.sp.val) →
      t.stack[k.val] = s.stack[k.val]) ∧
    (t.sp ≠ s.sp → (∃ nnn, i = .call nnn) ∨ i = .ret) ∧
    (t.dt ≠ s.dt → ∃ x, i = .ldDtVx x) ∧
    (t.st ≠ s.st → ∃ x, i = .ldStVx x) ∧
    (t.fb ≠ s.fb ∨ t.dirty ≠ s.dirty → i = .cls ∨ ∃ x y n, i = .drw x y n) ∧
    t.keys = s.keys ∧ t.font = s.font ∧
    (t.draws ≠ s.draws → ∃ x nn, i = .rnd x nn)

/-- The columns `KEYS`, `RND`, `FB`, `DT`, `ST` and `DIRTY` of the access matrix (R36, which the spec
marks as derived): such state cannot change what an instruction does that the matrix does not let
read or write it. `KEYS` is read by `SKP`, `SKNP`, `LD Vx, K` only, `RND` by `RND Vx, nn` only, `FB`
by `DRW` only, `DT` by `LD Vx, DT` only, `ST` and `DIRTY` by none. That the byte on `RND` is told by
the field `draws` is the model's choice (log 1). -/
def Obligations.InstructionsIgnoreOtherInputsTimersAndDisplay : Prop :=
  ∀ (i : Instr) (s : State),
    (∀ ks, (∀ x, i ≠ .skp x ∧ i ≠ .sknp x ∧ i ≠ .ldVxK x) →
      exec i { s with keys := ks } = onNext (fun t => { t with keys := ks }) (exec i s)) ∧
    (∀ d, (∀ x nn, i ≠ .rnd x nn) →
      exec i { s with draws := d } = onNext (fun t => { t with draws := d }) (exec i s)) ∧
    (∀ fb, i ≠ .cls → (∀ x y n, i ≠ .drw x y n) →
      exec i { s with fb := fb } = onNext (fun t => { t with fb := fb }) (exec i s)) ∧
    (∀ d, (∀ x, i ≠ .ldVxDt x ∧ i ≠ .ldDtVx x) →
      exec i { s with dt := d } = onNext (fun t => { t with dt := d }) (exec i s)) ∧
    (∀ d, (∀ x, i ≠ .ldStVx x) →
      exec i { s with st := d } = onNext (fun t => { t with st := d }) (exec i s)) ∧
    (∀ d, i ≠ .cls → (∀ x y n, i ≠ .drw x y n) →
      exec i { s with dirty := d } = onNext (fun t => { t with dirty := d }) (exec i s))

/-- The columns V, I, M and STACK, SP of the access matrix (R36, which the spec marks as derived): what
an instruction does to all other state, and whether it faults, does not depend on a V register, on
`I`, on memory, on the stack entries or on `SP` unless the matrix lets it read that, and such state
itself ends as it was or as the instruction writes it. Memory is changed together with `FONT_ROM`,
which is read through it only (log 17). -/
def Obligations.InstructionsIgnoreOtherRegistersMemoryAndStack : Prop :=
  ∀ (i : Instr) (s t : State), exec i s = .next t →
    (∀ r b, readsV i r = false → ∃ t', exec i (setV s r b) = .next t' ∧ t' = { t with v := t'.v } ∧
      (∀ q, q ≠ r → getV t' q = getV t q) ∧
      (getV t' r = getV t r ∨ (getV t r = getV s r ∧ getV t' r = b))) ∧
    (∀ w, (∀ x y n, i ≠ .drw x y n) →
      (∀ x, i ≠ .addIVx x ∧ i ≠ .ldBVx x ∧ i ≠ .ldMemVx x ∧ i ≠ .ldVxMem x) →
      ∃ t', exec i { s with i := w } = .next t' ∧ t' = { t with i := t'.i } ∧
        (t'.i = t.i ∨ (t.i = s.i ∧ t'.i = w))) ∧
    (∀ font m, MemWf s → Memory.wf font m → (∀ x y n, i ≠ .drw x y n) → (∀ x, i ≠ .ldVxMem x) →
      ∃ t', exec i { s with font := font, mem := m } = .next t' ∧
        t' = { t with font := font, mem := t'.mem } ∧
        ∀ a, byteAt t' a = byteAt t a ∨
          (byteAt t a = byteAt s a ∧ byteAt t' a = readByte font m a)) ∧
    (∀ st, i ≠ .ret → ∃ t', exec i { s with stack := st } = .next t' ∧
      t' = { t with stack := t'.stack } ∧
      ∀ k : Fin 16, t'.stack[k.val] = t.stack[k.val] ∨
        (t.stack[k.val] = s.stack[k.val] ∧ t'.stack[k.val] = st[k.val])) ∧
    (∀ p, i ≠ .ret → (∀ nnn, i ≠ .call nnn) →
      exec i { s with sp := p } = .next { t with sp := p })

/-! ### Control flow -/

/-- R102, R109: the jumps. -/
def Obligations.JumpsSetPcToTheirTarget : Prop :=
  ∀ (s : State) (nnn : Nat), nnn < 4096 →
    (Decodes (0x1000 + nnn) (.jp nnn) ∧
      Answers (.jp nnn) s fun t => OnlyPc s t ∧ t.pc.toNat = nnn) ∧
    (Decodes (0xB000 + nnn) (.jpV0 nnn) ∧
      Answers (.jpV0 nnn) s fun t => OnlyPc s t ∧ t.pc.toNat = nnn + (getV s 0).toNat)

/-- R100: `CALL nnn`. -/
def Obligations.CallPushesItsOwnAddress : Prop :=
  ∀ (s : State) (nnn : Nat), nnn < 4096 →
    Decodes (0x2000 + nnn) (.call nnn) ∧
    (s.sp.val < 16 → Answers (.call nnn) s fun t =>
      t = { s with pc := t.pc, sp := t.sp, stack := t.stack } ∧ SameMemory s t ∧
      t.pc.toNat = nnn ∧ t.sp.val = s.sp.val + 1 ∧
      ∀ k : Fin 16, t.stack[k.val] = if k.val = s.sp.val then s.pc else s.stack[k.val]) ∧
    (s.sp.val = 16 → exec (.call nnn) s = .next (Faulted s .stackOverflow 16))

/-- R101: `RET`. -/
def Obligations.ReturnResumesAfterTheCall : Prop :=
  ∀ s : State,
    Decodes 0x00EE .ret ∧
    (0 < s.sp.val → Answers .ret s fun t =>
      t = { s with pc := t.pc, sp := t.sp } ∧ SameMemory s t ∧ t.sp.val + 1 = s.sp.val ∧
      ∀ k : Fin 16, k.val = t.sp.val → t.pc = s.stack[k.val] + 2) ∧
    (s.sp.val = 0 → exec .ret s = .next (Faulted s .stackUnderflow 0))

/-- R100 and R101 together (conflict C1): whatever ran in between, a return that finds the call
stack as the call left it resumes at the instruction after the call. -/
def Obligations.CallThenReturnComesBack : Prop :=
  ∀ (s t u : State) (nnn : Nat), s.sp.val < 16 → exec (.call nnn) s = .next t →
    u.sp = t.sp → u.stack = t.stack →
    Answers .ret u fun w => w.pc = s.pc + 2 ∧ w.sp = s.sp ∧ w.stack = t.stack

/-- R103, R104, R105, R106: the compare-and-skip instructions. -/
def Obligations.CompareSkipsAddFourOrTwo : Prop :=
  ∀ (s : State) (x y : VReg) (nn : Byte),
    (Decodes (0x3000 + x.val * 0x100 + nn.toNat) (.seImm x nn) ∧
      Answers (.seImm x nn) s fun t =>
        OnlyPc s t ∧ t.pc = if getV s x = nn then s.pc + 4 else s.pc + 2) ∧
    (Decodes (0x4000 + x.val * 0x100 + nn.toNat) (.sneImm x nn) ∧
      Answers (.sneImm x nn) s fun t =>
        OnlyPc s t ∧ t.pc = if getV s x ≠ nn then s.pc + 4 else s.pc + 2) ∧
    (Decodes (0x5000 + x.val * 0x100 + y.val * 0x10) (.seReg x y) ∧
      Answers (.seReg x y) s fun t =>
        OnlyPc s t ∧ t.pc = if getV s x = getV s y then s.pc + 4 else s.pc + 2) ∧
    (Decodes (0x9000 + x.val * 0x100 + y.val * 0x10) (.sneReg x y) ∧
      Answers (.sneReg x y) s fun t =>
        OnlyPc s t ∧ t.pc = if getV s x ≠ getV s y then s.pc + 4 else s.pc + 2)

/-! ### Register and ALU instructions -/

/-- R122, R123, R124: load, add immediate (no flag, wraps), copy. -/
def Obligations.LoadAddImmediateAndCopy : Prop :=
  ∀ (s : State) (x y : VReg) (nn : Byte),
    (Decodes (0x6000 + x.val * 0x100 + nn.toNat) (.ldImm x nn) ∧
      Answers (.ldImm x nn) s fun t => WritesRegister s t x nn) ∧
    (Decodes (0x7000 + x.val * 0x100 + nn.toNat) (.addImm x nn) ∧
      Answers (.addImm x nn) s fun t =>
        WritesRegister s t x (BitVec.ofNat 8 (((getV s x).toNat + nn.toNat) % 256))) ∧
    (Decodes (0x8000 + x.val * 0x100 + y.val * 0x10) (.ldReg x y) ∧
      Answers (.ldReg x y) s fun t => WritesRegister s t x (getV s y))

/-- R125, R126, R127: the bitwise instructions set no flag. -/
def Obligations.BitwiseInstructionsSetNoFlag : Prop :=
  ∀ (s : State) (x y : VReg),
    (Decodes (0x8001 + x.val * 0x100 + y.val * 0x10) (.orReg x y) ∧
      Answers (.orReg x y) s fun t => WritesRegister s t x (getV s x ||| getV s y)) ∧
    (Decodes (0x8002 + x.val * 0x100 + y.val * 0x10) (.andReg x y) ∧
      Answers (.andReg x y) s fun t => WritesRegister s t x (getV s x &&& getV s y)) ∧
    (Decodes (0x8003 + x.val * 0x100 + y.val * 0x10) (.xorReg x y) ∧
      Answers (.xorReg x y) s fun t => WritesRegister s t x (getV s x ^^^ getV s y))

/-- R128: `ADD Vx, Vy`: the sum modulo 256, then the carry, which stays when `x = 15`. -/
def Obligations.AddWritesSumThenCarry : Prop :=
  ∀ (s : State) (x y : VReg),
    Decodes (0x8004 + x.val * 0x100 + y.val * 0x10) (.addReg x y) ∧
    Answers (.addReg x y) s fun t => OnlyPcAndV s t ∧ t.pc = s.pc + 2 ∧
      ∀ r, getV t r =
        if r = 15 then (if (getV s x).toNat + (getV s y).toNat > 255 then 1 else 0)
        else if r = x then BitVec.ofNat 8 (((getV s x).toNat + (getV s y).toNat) % 256)
        else getV s r

/-- R129, R131: `SUB` and `SUBN`: NOT borrow, then the difference modulo 256, which stays when
`x = 15`. -/
def Obligations.SubtractWritesNoBorrowThenDifference : Prop :=
  ∀ (s : State) (x y : VReg),
    (Decodes (0x8005 + x.val * 0x100 + y.val * 0x10) (.subReg x y) ∧
      Answers (.subReg x y) s fun t => OnlyPcAndV s t ∧ t.pc = s.pc + 2 ∧
        ∀ r, getV t r =
          if r = x then BitVec.ofNat 8 (((getV s x).toNat + 256 - (getV s y).toNat) % 256)
          else if r = 15 then (if (getV s x).toNat ≥ (getV s y).toNat then 1 else 0)
          else getV s r) ∧
    (Decodes (0x8007 + x.val * 0x100 + y.val * 0x10) (.subnReg x y) ∧
      Answers (.subnReg x y) s fun t => OnlyPcAndV s t ∧ t.pc = s.pc + 2 ∧
        ∀ r, getV t r =
          if r = x then BitVec.ofNat 8 (((getV s y).toNat + 256 - (getV s x).toNat) % 256)
          else if r = 15 then (if (getV s y).toNat ≥ (getV s x).toNat then 1 else 0)
          else getV s r)

/-- R130, R132: the shifts: the bit shifted out, then the shifted `Vx`, whatever the field `y` is.
-/
def Obligations.ShiftsIgnoreTheFieldY : Prop :=
  ∀ (s : State) (x y : VReg),
    (Decodes (0x8006 + x.val * 0x100 + y.val * 0x10) (.shr x y) ∧
      Answers (.shr x y) s fun t => OnlyPcAndV s t ∧ t.pc = s.pc + 2 ∧
        ∀ r, getV t r =
          if r = x then BitVec.ofNat 8 ((getV s x).toNat / 2)
          else if r = 15 then BitVec.ofNat 8 ((getV s x).toNat % 2)
          else getV s r) ∧
    (Decodes (0x800E + x.val * 0x100 + y.val * 0x10) (.shl x y) ∧
      Answers (.shl x y) s fun t => OnlyPcAndV s t ∧ t.pc = s.pc + 2 ∧
        ∀ r, getV t r =
          if r = x then BitVec.ofNat 8 (2 * (getV s x).toNat % 256)
          else if r = 15 then BitVec.ofNat 8 ((getV s x).toNat / 128)
          else getV s r)

/-- R133: `RND Vx, nn` stores the drawn byte masked with `nn`. That the byte is the environment's
`draws`-th one, and that `draws` then goes on by one, is the model's choice (log 1); the statement
holds for every value of the field and whatever the byte is. -/
def Obligations.RandomByteIsMasked : Prop :=
  ∀ (s : State) (x : VReg) (nn : Byte),
    Decodes (0xC000 + x.val * 0x100 + nn.toNat) (.rnd x nn) ∧
    Answers (.rnd x nn) s fun t =>
      t = { s with pc := s.pc + 2, v := t.v, draws := s.draws + 1 } ∧ SameMemory s t ∧
      (∀ r, r ≠ x → getV t r = getV s r) ∧
      getV t x = Config.rndByte s.draws &&& nn ∧
      (nn = 0x00 → getV t x = 0) ∧ (nn = 0xFF → getV t x = Config.rndByte s.draws)

/-! ### Index register and memory -/

/-- R140, R141, R142: the instructions that write `I`. -/
def Obligations.IndexWritesSetNoFlag : Prop :=
  ∀ (s : State) (x : VReg) (nnn : Nat), nnn < 4096 →
    (Decodes (0xA000 + nnn) (.ldI nnn) ∧
      Answers (.ldI nnn) s fun t => WritesIndex s t nnn) ∧
    (Decodes (0xF01E + x.val * 0x100) (.addIVx x) ∧
      Answers (.addIVx x) s fun t =>
        WritesIndex s t ((s.i.toNat + (getV s x).toNat) % 0x10000)) ∧
    (Decodes (0xF029 + x.val * 0x100) (.ldFVx x) ∧
      Answers (.ldFVx x) s fun t => WritesIndex s t ((getV s x).toNat % 16 * 5))

/-- R143: `LD B, Vx`. -/
def Obligations.BcdStoresThreeDigits : Prop :=
  ∀ (s : State) (x : VReg), MemWf s →
    Decodes (0xF033 + x.val * 0x100) (.ldBVx x) ∧
    (s.i.toNat ≤ 0xFFD → Answers (.ldBVx x) s fun t =>
      t = { s with pc := s.pc + 2, mem := t.mem } ∧
      (byteAt t s.i.toNat).toNat = (getV s x).toNat / 100 ∧
      (byteAt t (s.i.toNat + 1)).toNat = (getV s x).toNat / 10 % 10 ∧
      (byteAt t (s.i.toNat + 2)).toNat = (getV s x).toNat % 10 ∧
      ∀ a, (a < s.i.toNat ∨ s.i.toNat + 3 ≤ a) → byteAt t a = byteAt s a) ∧
    (0xFFD < s.i.toNat →
      exec (.ldBVx x) s = .next (Faulted s .dataOutOfRange (max s.i.toNat 0x1000)))

/-- R145: `LD [I], Vx`. -/
def Obligations.RegisterDumpStoresTheBlock : Prop :=
  ∀ (s : State) (x : VReg), MemWf s →
    Decodes (0xF055 + x.val * 0x100) (.ldMemVx x) ∧
    (s.i.toNat + x.val ≤ 0xFFF → Answers (.ldMemVx x) s fun t =>
      t = { s with pc := s.pc + 2, mem := t.mem } ∧
      (∀ k : VReg, k.val ≤ x.val → byteAt t (s.i.toNat + k.val) = getV s k) ∧
      ∀ a, (a < s.i.toNat ∨ s.i.toNat + x.val < a) → byteAt t a = byteAt s a) ∧
    (0xFFF < s.i.toNat + x.val →
      exec (.ldMemVx x) s = .next (Faulted s .dataOutOfRange (max s.i.toNat 0x1000)))

/-- R146: `LD Vx, [I]`. -/
def Obligations.RegisterLoadReadsTheBlock : Prop :=
  ∀ (s : State) (x : VReg),
    Decodes (0xF065 + x.val * 0x100) (.ldVxMem x) ∧
    (s.i.toNat + x.val ≤ 0xFFF → Answers (.ldVxMem x) s fun t =>
      OnlyPcAndV s t ∧ t.pc = s.pc + 2 ∧
      ∀ r : VReg, getV t r =
        if r.val ≤ x.val then byteAt s (s.i.toNat + r.val) else getV s r) ∧
    (0xFFF < s.i.toNat + x.val →
      exec (.ldVxMem x) s = .next (Faulted s .dataOutOfRange (max s.i.toNat 0x1000)))

/-- R147, which the spec marks as derived: the four memory instructions leave `I`, and storing
`V0..Vx` and loading them back gives the same registers, with no instruction between the two restoring
`I`: the load may run in any state in which every byte of memory and `I` read as the store left them.
-/
def Obligations.DumpThenLoadGivesTheRegistersBack : Prop :=
  (∀ (s t : State) (x y : VReg) (n : Nat),
    exec (.ldBVx x) s = .next t ∨ exec (.ldMemVx x) s = .next t ∨ exec (.ldVxMem x) s = .next t ∨
      exec (.drw x y n) s = .next t → t.i = s.i) ∧
  (∀ (s t u : State) (x : VReg), MemWf s → s.i.toNat + x.val ≤ 0xFFF →
    exec (.ldMemVx x) s = .next t → SameMemory t u → u.i = t.i →
    Answers (.ldVxMem x) u fun w => w.i = s.i ∧ ∀ r : VReg, r.val ≤ x.val → getV w r = getV s r)

/-- R64, which the spec marks as derived: a store by `LD B, Vx` or `LD [I], Vx` is seen by the very
next fetch. Each of the two bytes the next opcode is composed of is the stored byte where the block
covers its address, and the byte that was there where it does not. -/
def Obligations.StoreIsSeenByTheNextFetch : Prop :=
  ∀ (i : Instr) (s t : State) (next : Nat → Byte), MemWf s → s.fault = none →
    Decodes (opcodeAt s) i → 0 < storeLengthOf i → step s = .next t → t.fault = none →
    (∀ a, next a = if s.i.toNat ≤ a ∧ a < s.i.toNat + storeLengthOf i
      then storedByte i s (a - s.i.toNat) else byteAt s a) →
    t.pc = s.pc + 2 ∧
    (s.pc.toNat + 3 ≤ 0xFFF →
      fetchOpcode t = some (composeOpcode (next (s.pc.toNat + 2)) (next (s.pc.toNat + 3))))

/-! ### Display -/

/-- R150: `CLS`. -/
def Obligations.ClearScreenZeroesEveryCell : Prop :=
  ∀ s : State, Decodes 0x00E0 .cls ∧
    Answers .cls s fun t =>
      t = { s with pc := s.pc + 2, fb := t.fb, dirty := true } ∧ SameMemory s t ∧
      ∀ k, fbCell t.fb k = false

/-- R151: `DRW Vx, Vy, n`: exactly the cells under a 1 bit of the sprite change, `VF` is 1 iff one
of them was 1, `DIRTY` is set, nothing else changes; a block out of range faults instead. -/
def Obligations.DrawTogglesExactlyTheCoveredCells : Prop :=
  ∀ (s : State) (x y : VReg) (n : Nat), n < 16 →
    Decodes (0xD000 + x.val * 0x100 + y.val * 0x10 + n) (.drw x y n) ∧
    (n = 0 ∨ s.i.toNat + n ≤ 0x1000 → Answers (.drw x y n) s fun t =>
      t = { s with pc := s.pc + 2, v := t.v, fb := t.fb, dirty := true } ∧ SameMemory s t ∧
      (∀ k, fbCell t.fb k = true ↔
        ¬ (fbCell s.fb k = true ↔ Covered s (getV s x) (getV s y) n k)) ∧
      (getV t 15 = 0 ∨ getV t 15 = 1) ∧
      (getV t 15 = 1 ↔ ∃ k, Covered s (getV s x) (getV s y) n k ∧ fbCell s.fb k = true) ∧
      ∀ r, r ≠ 15 → getV t r = getV s r) ∧
    (0 < n → 0x1000 < s.i.toNat + n →
      exec (.drw x y n) s = .next (Faulted s .dataOutOfRange (max s.i.toNat 0x1000)))

/-- R152, which the spec marks as derived: drawing the same sprite at the same coordinates twice
restores the framebuffer, and the second draw's `VF` is 1 iff some 1 bit covers a cell that was 0
before the first; a draw on a blank screen gives `VF = 0`; a sprite at column 60 wraps its columns 4
to 7 to columns 0 to 3 of the same row. -/
def Obligations.DrawingTwiceRestoresTheScreen : Prop :=
  ∀ (s t : State) (x y : VReg) (n : Nat), n < 16 → (n = 0 ∨ s.i.toNat + n ≤ 0x1000) →
    exec (.drw x y n) s = .next t →
    (getV t x = getV s x → getV t y = getV s y →
      Answers (.drw x y n) t fun u => u.fb = s.fb ∧
        (getV u 15 = 1 ↔ ∃ k, Covered s (getV s x) (getV s y) n k ∧ fbCell s.fb k = false)) ∧
    ((∀ k, fbCell s.fb k = false) → getV t 15 = 0) ∧
    (getV s x = 60 → ∀ r, r < n → ∀ c, 4 ≤ c → c < 8 →
      (byteAt s (s.i.toNat + r)).getLsbD (7 - c) = true →
      ∀ k : Fin 2048, k.val = ((getV s y).toNat + r) % 32 * 64 + (c - 4) →
        fbCell t.fb k = !fbCell s.fb k)

/-! ### Keys and timers -/

/-- R160, R161: the key skips, on the low nibble of `Vx`. -/
def Obligations.KeySkipsTestTheLowNibble : Prop :=
  ∀ (s : State) (x : VReg) (k : Fin 16), k.val = (getV s x).toNat % 16 →
    (Decodes (0xE09E + x.val * 0x100) (.skp x) ∧
      Answers (.skp x) s fun t =>
        OnlyPc s t ∧ t.pc = if s.keys[k.val] = true then s.pc + 4 else s.pc + 2) ∧
    (Decodes (0xE0A1 + x.val * 0x100) (.sknp x) ∧
      Answers (.sknp x) s fun t =>
        OnlyPc s t ∧ t.pc = if s.keys[k.val] = false then s.pc + 4 else s.pc + 2)

/-- R162: `LD Vx, K`: the least pressed key, or nothing at all while no key is down. -/
def Obligations.BlockOnKeyTakesTheLeastPressedKey : Prop :=
  ∀ (s : State) (x : VReg),
    Decodes (0xF00A + x.val * 0x100) (.ldVxK x) ∧
    ((∀ k : Fin 16, s.keys[k.val] = false) → exec (.ldVxK x) s = .next s) ∧
    (∀ k : Fin 16, s.keys[k.val] = true → (∀ j : Fin 16, j < k → s.keys[j.val] = false) →
      Answers (.ldVxK x) s fun t => WritesRegister s t x (BitVec.ofNat 8 k.val))

/-- R163, R164, R165: the timer transfers, and what the timer phase of the same step makes of them
(the end-of-step values are marked as derived by the spec). -/
def Obligations.TimerTransfersAndTheTickOfTheirStep : Prop :=
  ∀ (s : State) (x : VReg),
    (Decodes (0xF007 + x.val * 0x100) (.ldVxDt x) ∧
      Answers (.ldVxDt x) s fun t => WritesRegister s t x s.dt) ∧
    (Decodes (0xF015 + x.val * 0x100) (.ldDtVx x) ∧
      Answers (.ldDtVx x) s fun t =>
        t = { s with pc := s.pc + 2, dt := getV s x } ∧ SameMemory s t) ∧
    (Decodes (0xF018 + x.val * 0x100) (.ldStVx x) ∧
      Answers (.ldStVx x) s fun t =>
        t = { s with pc := s.pc + 2, st := getV s x } ∧ SameMemory s t) ∧
    (s.fault = none → s.pc.toNat + 1 ≤ 0xFFF →
      (Decodes (opcodeAt s) (.ldVxDt x) →
        ∃ t, step s = .next t ∧ getV t x = s.dt ∧ t.dt = ticked s.dt) ∧
      (Decodes (opcodeAt s) (.ldDtVx x) →
        ∃ t, step s = .next t ∧ t.dt = ticked (getV s x)) ∧
      (Decodes (opcodeAt s) (.ldStVx x) →
        ∃ t, step s = .next t ∧ t.st = ticked (getV s x) ∧ (t.tone = true ↔ getV s x = 1)))
end

