-- ==== Sys2Proof/Laws/Encoding.lean ====
section
/-!
SUPPORT. What the fields of a word are, and what each class of the decoder answers.
-/

namespace Sys2Proof

/-- A slice is smaller than its width allows. -/
theorem slice_lt (op : Word) (lo width : Nat) : slice op lo width < 2 ^ width :=
  Nat.mod_lt _ (by positivity)

/-- The register field `x` as a number. -/
@[simp] theorem fieldX_val (op : Word) : (fieldX op).val = op.toNat / 256 % 16 := by
  simp [fieldX, slice, Fin.ofNat]

/-- The register field `y` as a number. -/
@[simp] theorem fieldY_val (op : Word) : (fieldY op).val = op.toNat / 16 % 16 := by
  simp [fieldY, slice, Fin.ofNat]

/-- The 8-bit immediate as a number. -/
@[simp] theorem fieldNN_toNat (op : Word) : (fieldNN op).toNat = op.toNat % 256 := by
  simp [fieldNN, slice]

/-- The address field as a number. -/
@[simp] theorem fieldNNN_eq (op : Word) : fieldNNN op = op.toNat % 4096 := by
  simp [fieldNNN, slice]

/-- The row count as a number. -/
@[simp] theorem fieldN_eq (op : Word) : fieldN op = op.toNat % 16 := by
  simp [fieldN, slice]

/-- The composed opcode is `(b0 << 8) | b1` (R54). -/
@[simp] theorem composeOpcode_toNat (b0 b1 : Byte) :
    (composeOpcode b0 b1).toNat = b0.toNat * 256 + b1.toNat := by
  have h : (composeOpcode b0 b1).toNat = b0.toNat <<< 8 ||| b1.toNat := BitVec.toNat_append ..
  rw [h, Nat.shiftLeft_eq, Nat.mul_comm, ← Nat.two_pow_add_eq_or_of_lt b1.isLt]

/-- A word is composed of its two bytes. -/
@[simp] theorem composeOpcode_highByte_lowByte (op : Word) :
    composeOpcode (highByte op) (lowByte op) = op := by
  apply BitVec.eq_of_toNat_eq
  have := op.isLt
  simp only [composeOpcode_toNat, highByte, lowByte, slice, BitVec.toNat_ofNat]
  omega

/-! ### Well-formedness -/

@[simp] theorem jp_wf (nnn : Nat) : (Instr.jp nnn).WellFormed ↔ nnn < 4096 := decide_eq_true_iff

@[simp] theorem call_wf (nnn : Nat) : (Instr.call nnn).WellFormed ↔ nnn < 4096 := decide_eq_true_iff

@[simp] theorem ldI_wf (nnn : Nat) : (Instr.ldI nnn).WellFormed ↔ nnn < 4096 := decide_eq_true_iff

@[simp] theorem jpV0_wf (nnn : Nat) : (Instr.jpV0 nnn).WellFormed ↔ nnn < 4096 := decide_eq_true_iff

@[simp] theorem drw_wf (x y : VReg) (n : Nat) : (Instr.drw x y n).WellFormed ↔ n < 16 :=
  decide_eq_true_iff

/-! ### The format words -/

/-- The number a format word is, when its operands fit. -/
theorem wordNNN_toNat {c nnn : Nat} (hc : c < 16) (h : nnn < 4096) :
    (wordNNN c nnn).toNat = c * 4096 + nnn := by
  simp only [wordNNN, BitVec.toNat_ofNat]; omega

@[simp] theorem wordXNN_toNat {c : Nat} (hc : c < 16) (x : VReg) (nn : Byte) :
    (wordXNN c x nn).toNat = c * 4096 + x.val * 256 + nn.toNat := by
  have := x.isLt; have := nn.isLt
  simp only [wordXNN, BitVec.toNat_ofNat]; omega

theorem wordXYN_toNat {c n : Nat} (hc : c < 16) (x y : VReg) (hn : n < 16) :
    (wordXYN c x y n).toNat = c * 4096 + x.val * 256 + y.val * 16 + n := by
  have := x.isLt; have := y.isLt
  simp only [wordXYN, BitVec.toNat_ofNat]; omega

theorem wordX_toNat {c sel : Nat} (hc : c < 16) (x : VReg) (hs : sel < 256) :
    (wordX c x sel).toNat = c * 4096 + x.val * 256 + sel := by
  have := x.isLt
  simp only [wordX, BitVec.toNat_ofNat]; omega

end Sys2Proof
end

