-- ==== Sys2Proof/Laws/Memory.lean ====
section
/-!
SUPPORT. The laws of memory: every operation keeps the canonical form, a written byte reads as
written, and a write leaves every other byte alone.
-/

namespace Sys2Proof.Machine

variable {font : FontRom}

/-- The rest of a canonical memory is canonical. -/
theorem Memory.wf_tail {c : Host.Cell} {m : Memory} (h : Memory.wf font (c :: m)) : Memory.wf font m :=
  ⟨(List.pairwise_cons.1 h.1).2, fun d hd => h.2 d (List.mem_cons_of_mem _ hd)⟩

/-- Every address of the rest lies above the first one. -/
theorem Memory.wf_head_lt {c : Host.Cell} {m : Memory} (h : Memory.wf font (c :: m)) :
    ∀ d ∈ m, c.1 < d.1 := (List.pairwise_cons.1 h.1).1

/-- An address below every listed one reads as its reset contents. -/
theorem readByte_of_all_ne {m : Memory} {a : Nat} (h : ∀ c ∈ m, c.1 ≠ a) :
    readByte font m a = resetByte font a := by
  induction m with
  | nil => rfl
  | cons c m ih =>
    have hc := h c List.mem_cons_self
    simp only [readByte, if_neg hc]
    exact ih fun d hd => h d (List.mem_cons_of_mem _ hd)

/-- The cells of a written memory are the new cell or old ones. -/
theorem mem_writeByte {m : Memory} {a : Nat} {b : Byte} {c : Host.Cell}
    (h : c ∈ writeByte font m a b) : (c = (a, b) ∧ b ≠ resetByte font a) ∨ c ∈ m := by
  induction m with
  | nil =>
    simp only [writeByte] at h
    split at h
    · simp at h
    · simp only [List.mem_singleton] at h; exact .inl ⟨h, ‹_›⟩
  | cons d m ih =>
    obtain ⟨k, e⟩ := d
    simp only [writeByte] at h
    split_ifs at h <;> simp only [List.mem_cons] at h ⊢
    · exact .inr h
    · rcases h with h | h
      · exact .inl ⟨h, ‹_›⟩
      · exact .inr h
    · exact .inr (.inr h)
    · rcases h with h | h
      · exact .inl ⟨h, ‹_›⟩
      · exact .inr (.inr h)
    · rcases h with h | h
      · exact .inr (.inl h)
      · rcases ih h with h | h
        · exact .inl h
        · exact .inr (.inr h)

/-- A write inside the address space keeps the canonical form. -/
theorem writeByte_wf {m : Memory} {a : Nat} (b : Byte) (hm : Memory.wf font m)
    (ha : a < Config.memSize) : Memory.wf font (writeByte font m a b) := by
  refine ⟨?_, fun c hc => ?_⟩
  · induction m with
    | nil => simp only [writeByte]; split <;> simp
    | cons d m ih =>
      obtain ⟨k, e⟩ := d
      have hlt := Memory.wf_head_lt hm
      have hp := hm.1
      simp only [writeByte]
      split_ifs with h1 h2 h3 h4
      · exact hp
      · refine List.pairwise_cons.2 ⟨fun c hc => ?_, hp⟩
        rcases List.mem_cons.1 hc with rfl | hc
        · exact h1
        · exact lt_trans h1 (hlt c hc)
      · exact (List.pairwise_cons.1 hp).2
      · subst h3
        exact List.pairwise_cons.2 ⟨fun c hc => hlt c hc, (List.pairwise_cons.1 hp).2⟩
      · refine List.pairwise_cons.2 ⟨fun c hc => ?_, ih (Memory.wf_tail hm)⟩
        rcases mem_writeByte hc with ⟨rfl, -⟩ | hc
        · simp only; omega
        · exact hlt c hc
  · rcases mem_writeByte hc with ⟨rfl, hb⟩ | hc
    · exact ⟨ha, hb⟩
    · exact hm.2 c hc

/-- Read after write: the written address gives the written byte, every other address what it gave. -/
theorem readByte_writeByte {m : Memory} (hm : Memory.wf font m) (a c : Nat) (b : Byte) :
    readByte font (writeByte font m a b) c = if c = a then b else readByte font m c := by
  induction m with
  | nil =>
    simp only [writeByte]
    split_ifs with h1 h2 h2
    · rw [h2, h1]; rfl
    · rfl
    · simp [readByte, h2]
    · simp [readByte, Ne.symm h2]
  | cons d m ih =>
    obtain ⟨k, e⟩ := d
    have hlt := Memory.wf_head_lt hm
    have hlow : ∀ a', a' ≤ k → readByte font m a' = resetByte font a' := fun a' h =>
      readByte_of_all_ne fun d hd => by have := hlt d hd; simp only at this; omega
    simp only [writeByte]
    split_ifs with h1 h2 h3 h4 h5 h6 h7
    · subst h3
      rw [h2]; simp only [readByte]
      rw [if_neg (by omega), hlow _ (by omega)]
    · rfl
    · subst h4; simp [readByte]
    · simp only [readByte]; rw [if_neg (Ne.symm h4)]
    · subst h5; subst h7; rw [h6, hlow _ (le_refl _)]
    · subst h5; simp only [readByte]; rw [if_neg (Ne.symm h7)]
    · subst h5; rename_i h; subst h; simp [readByte]
    · subst h5; rename_i h; simp only [readByte]; rw [if_neg (Ne.symm h), if_neg (Ne.symm h)]
    · rename_i h; subst h
      simp only [readByte]
      rw [if_neg (Ne.symm h5), ih (Memory.wf_tail hm), if_pos rfl]
    · rename_i h
      simp only [readByte]
      rw [ih (Memory.wf_tail hm), if_neg h]

/-- Writing bytes inside the address space keeps the canonical form. -/
theorem writeBytes_wf {m : Memory} {a : Nat} (bs : List Byte) (hm : Memory.wf font m)
    (ha : a + bs.length ≤ Config.memSize) : Memory.wf font (writeBytes font m a bs) := by
  induction bs generalizing m a with
  | nil => exact hm
  | cons b bs ih =>
    simp only [List.length_cons] at ha
    exact ih (writeByte_wf b hm (by omega)) (by omega)

/-- Read after a sequence of writes. -/
theorem readByte_writeBytes {m : Memory} {a : Nat} (bs : List Byte) (hm : Memory.wf font m)
    (ha : a + bs.length ≤ Config.memSize) (c : Nat) :
    readByte font (writeBytes font m a bs) c
      = if a ≤ c ∧ c < a + bs.length then bs.getD (c - a) 0 else readByte font m c := by
  induction bs generalizing m a with
  | nil => simp [writeBytes]
  | cons b bs ih =>
    simp only [List.length_cons] at ha
    simp only [writeBytes]
    rw [ih (writeByte_wf b hm (by omega)) (by omega), readByte_writeByte hm]
    by_cases hc : c = a
    · subst hc
      rw [if_neg (by omega), if_pos rfl, if_pos (by simp)]
      simp
    · rw [if_neg hc]
      by_cases h : a + 1 ≤ c ∧ c < a + 1 + bs.length
      · rw [if_pos h, if_pos (by simp only [List.length_cons]; omega)]
        obtain ⟨j, rfl⟩ : ∃ j, c = a + 1 + j := ⟨c - (a + 1), by omega⟩
        rw [show a + 1 + j - (a + 1) = j by omega, show a + 1 + j - a = j + 1 by omega]
        simp
      · rw [if_neg h, if_neg (by simp only [List.length_cons]; omega)]

/-- Storing bytes inside the address space keeps the canonical form of a state's memory. -/
theorem storeBytes_memWf {s : State} {a : Nat} (bs : List Byte) (h : MemWf s)
    (ha : a + bs.length ≤ Config.memSize) : MemWf (storeBytes s a bs) :=
  writeBytes_wf bs h ha

/-- Read after store: the stored addresses read as the stored bytes, every other one as before. -/
theorem byteAt_storeBytes {s : State} {a : Nat} (bs : List Byte) (h : MemWf s)
    (ha : a + bs.length ≤ Config.memSize) (c : Nat) :
    byteAt (storeBytes s a bs) c
      = if a ≤ c ∧ c < a + bs.length then bs.getD (c - a) 0 else byteAt s c :=
  readByte_writeBytes bs h ha c

/-- The memory after reset is canonical. -/
theorem reset_memory_wf (font : FontRom) : MemWf (State.resetWith font) :=
  ⟨List.Pairwise.nil, fun _ h => absurd h List.not_mem_nil⟩

end Sys2Proof.Machine
end

