-- ==== Sys2Proof/Laws/State.lean ====
section
/-!
SUPPORT. One lemma per field and update, so that no proof unfolds a record update, and the two laws
of the register file.
-/

namespace Sys2Proof.Machine

/-! ### `setV` -/

@[simp] theorem setV_v (s : State) (x : VReg) (b : Byte) : (setV s x b).v = s.v.set x.val b := rfl
@[simp] theorem setV_pc (s : State) (x : VReg) (b : Byte) : (setV s x b).pc = s.pc := rfl
@[simp] theorem setV_i (s : State) (x : VReg) (b : Byte) : (setV s x b).i = s.i := rfl
@[simp] theorem setV_stack (s : State) (x : VReg) (b : Byte) : (setV s x b).stack = s.stack := rfl
@[simp] theorem setV_sp (s : State) (x : VReg) (b : Byte) : (setV s x b).sp = s.sp := rfl
@[simp] theorem setV_dt (s : State) (x : VReg) (b : Byte) : (setV s x b).dt = s.dt := rfl
@[simp] theorem setV_st (s : State) (x : VReg) (b : Byte) : (setV s x b).st = s.st := rfl
@[simp] theorem setV_mem (s : State) (x : VReg) (b : Byte) : (setV s x b).mem = s.mem := rfl
@[simp] theorem setV_fb (s : State) (x : VReg) (b : Byte) : (setV s x b).fb = s.fb := rfl
@[simp] theorem setV_dirty (s : State) (x : VReg) (b : Byte) : (setV s x b).dirty = s.dirty := rfl
@[simp] theorem setV_keys (s : State) (x : VReg) (b : Byte) : (setV s x b).keys = s.keys := rfl
@[simp] theorem setV_fault (s : State) (x : VReg) (b : Byte) : (setV s x b).fault = s.fault := rfl
@[simp] theorem setV_tone (s : State) (x : VReg) (b : Byte) : (setV s x b).tone = s.tone := rfl
@[simp] theorem setV_unk (s : State) (x : VReg) (b : Byte) : (setV s x b).unk = s.unk := rfl
@[simp] theorem setV_draws (s : State) (x : VReg) (b : Byte) : (setV s x b).draws = s.draws := rfl
@[simp] theorem setV_font (s : State) (x : VReg) (b : Byte) : (setV s x b).font = s.font := rfl

/-! ### `advance` -/

@[simp] theorem advance_v (s : State) (k : Nat) : (advance s k).v = s.v := rfl
@[simp] theorem advance_pc (s : State) (k : Nat) : (advance s k).pc = s.pc + BitVec.ofNat 16 k := rfl
@[simp] theorem advance_i (s : State) (k : Nat) : (advance s k).i = s.i := rfl
@[simp] theorem advance_stack (s : State) (k : Nat) : (advance s k).stack = s.stack := rfl
@[simp] theorem advance_sp (s : State) (k : Nat) : (advance s k).sp = s.sp := rfl
@[simp] theorem advance_dt (s : State) (k : Nat) : (advance s k).dt = s.dt := rfl
@[simp] theorem advance_st (s : State) (k : Nat) : (advance s k).st = s.st := rfl
@[simp] theorem advance_mem (s : State) (k : Nat) : (advance s k).mem = s.mem := rfl
@[simp] theorem advance_fb (s : State) (k : Nat) : (advance s k).fb = s.fb := rfl
@[simp] theorem advance_dirty (s : State) (k : Nat) : (advance s k).dirty = s.dirty := rfl
@[simp] theorem advance_keys (s : State) (k : Nat) : (advance s k).keys = s.keys := rfl
@[simp] theorem advance_fault (s : State) (k : Nat) : (advance s k).fault = s.fault := rfl
@[simp] theorem advance_tone (s : State) (k : Nat) : (advance s k).tone = s.tone := rfl
@[simp] theorem advance_unk (s : State) (k : Nat) : (advance s k).unk = s.unk := rfl
@[simp] theorem advance_draws (s : State) (k : Nat) : (advance s k).draws = s.draws := rfl
@[simp] theorem advance_font (s : State) (k : Nat) : (advance s k).font = s.font := rfl

/-! ### `jumpTo` -/

@[simp] theorem jumpTo_v (s : State) (w : Word) : (jumpTo s w).v = s.v := rfl
@[simp] theorem jumpTo_pc (s : State) (w : Word) : (jumpTo s w).pc = w := rfl
@[simp] theorem jumpTo_i (s : State) (w : Word) : (jumpTo s w).i = s.i := rfl
@[simp] theorem jumpTo_stack (s : State) (w : Word) : (jumpTo s w).stack = s.stack := rfl
@[simp] theorem jumpTo_sp (s : State) (w : Word) : (jumpTo s w).sp = s.sp := rfl
@[simp] theorem jumpTo_dt (s : State) (w : Word) : (jumpTo s w).dt = s.dt := rfl
@[simp] theorem jumpTo_st (s : State) (w : Word) : (jumpTo s w).st = s.st := rfl
@[simp] theorem jumpTo_mem (s : State) (w : Word) : (jumpTo s w).mem = s.mem := rfl
@[simp] theorem jumpTo_fb (s : State) (w : Word) : (jumpTo s w).fb = s.fb := rfl
@[simp] theorem jumpTo_dirty (s : State) (w : Word) : (jumpTo s w).dirty = s.dirty := rfl
@[simp] theorem jumpTo_keys (s : State) (w : Word) : (jumpTo s w).keys = s.keys := rfl
@[simp] theorem jumpTo_fault (s : State) (w : Word) : (jumpTo s w).fault = s.fault := rfl
@[simp] theorem jumpTo_tone (s : State) (w : Word) : (jumpTo s w).tone = s.tone := rfl
@[simp] theorem jumpTo_unk (s : State) (w : Word) : (jumpTo s w).unk = s.unk := rfl
@[simp] theorem jumpTo_draws (s : State) (w : Word) : (jumpTo s w).draws = s.draws := rfl
@[simp] theorem jumpTo_font (s : State) (w : Word) : (jumpTo s w).font = s.font := rfl

/-! ### `raise` -/

@[simp] theorem raise_v (s : State) (c : FaultCause) (info : Nat) : (raise s c info).v = s.v := rfl
@[simp] theorem raise_pc (s : State) (c : FaultCause) (info : Nat) : (raise s c info).pc = s.pc := rfl
@[simp] theorem raise_i (s : State) (c : FaultCause) (info : Nat) : (raise s c info).i = s.i := rfl
@[simp] theorem raise_stack (s : State) (c : FaultCause) (info : Nat) : (raise s c info).stack = s.stack := rfl
@[simp] theorem raise_sp (s : State) (c : FaultCause) (info : Nat) : (raise s c info).sp = s.sp := rfl
@[simp] theorem raise_dt (s : State) (c : FaultCause) (info : Nat) : (raise s c info).dt = s.dt := rfl
@[simp] theorem raise_st (s : State) (c : FaultCause) (info : Nat) : (raise s c info).st = s.st := rfl
@[simp] theorem raise_mem (s : State) (c : FaultCause) (info : Nat) : (raise s c info).mem = s.mem := rfl
@[simp] theorem raise_fb (s : State) (c : FaultCause) (info : Nat) : (raise s c info).fb = s.fb := rfl
@[simp] theorem raise_dirty (s : State) (c : FaultCause) (info : Nat) : (raise s c info).dirty = s.dirty := rfl
@[simp] theorem raise_keys (s : State) (c : FaultCause) (info : Nat) : (raise s c info).keys = s.keys := rfl
@[simp] theorem raise_fault (s : State) (c : FaultCause) (info : Nat) : (raise s c info).fault = some ⟨c, BitVec.ofNat 17 info⟩ := rfl
@[simp] theorem raise_tone (s : State) (c : FaultCause) (info : Nat) : (raise s c info).tone = false := rfl
@[simp] theorem raise_unk (s : State) (c : FaultCause) (info : Nat) : (raise s c info).unk = none := rfl
@[simp] theorem raise_draws (s : State) (c : FaultCause) (info : Nat) : (raise s c info).draws = s.draws := rfl
@[simp] theorem raise_font (s : State) (c : FaultCause) (info : Nat) : (raise s c info).font = s.font := rfl

/-! ### `clearOutputs` -/

@[simp] theorem clearOutputs_v (s : State) : (clearOutputs s).v = s.v := rfl
@[simp] theorem clearOutputs_pc (s : State) : (clearOutputs s).pc = s.pc := rfl
@[simp] theorem clearOutputs_i (s : State) : (clearOutputs s).i = s.i := rfl
@[simp] theorem clearOutputs_stack (s : State) : (clearOutputs s).stack = s.stack := rfl
@[simp] theorem clearOutputs_sp (s : State) : (clearOutputs s).sp = s.sp := rfl
@[simp] theorem clearOutputs_dt (s : State) : (clearOutputs s).dt = s.dt := rfl
@[simp] theorem clearOutputs_st (s : State) : (clearOutputs s).st = s.st := rfl
@[simp] theorem clearOutputs_mem (s : State) : (clearOutputs s).mem = s.mem := rfl
@[simp] theorem clearOutputs_fb (s : State) : (clearOutputs s).fb = s.fb := rfl
@[simp] theorem clearOutputs_dirty (s : State) : (clearOutputs s).dirty = s.dirty := rfl
@[simp] theorem clearOutputs_keys (s : State) : (clearOutputs s).keys = s.keys := rfl
@[simp] theorem clearOutputs_fault (s : State) : (clearOutputs s).fault = s.fault := rfl
@[simp] theorem clearOutputs_tone (s : State) : (clearOutputs s).tone = false := rfl
@[simp] theorem clearOutputs_unk (s : State) : (clearOutputs s).unk = none := rfl
@[simp] theorem clearOutputs_draws (s : State) : (clearOutputs s).draws = s.draws := rfl
@[simp] theorem clearOutputs_font (s : State) : (clearOutputs s).font = s.font := rfl

/-! ### `timerPhase` -/

@[simp] theorem timerPhase_v (s : State) : (timerPhase s).v = s.v := rfl
@[simp] theorem timerPhase_pc (s : State) : (timerPhase s).pc = s.pc := rfl
@[simp] theorem timerPhase_i (s : State) : (timerPhase s).i = s.i := rfl
@[simp] theorem timerPhase_stack (s : State) : (timerPhase s).stack = s.stack := rfl
@[simp] theorem timerPhase_sp (s : State) : (timerPhase s).sp = s.sp := rfl
@[simp] theorem timerPhase_dt (s : State) : (timerPhase s).dt = countDown s.dt := rfl
@[simp] theorem timerPhase_st (s : State) : (timerPhase s).st = countDown s.st := rfl
@[simp] theorem timerPhase_mem (s : State) : (timerPhase s).mem = s.mem := rfl
@[simp] theorem timerPhase_fb (s : State) : (timerPhase s).fb = s.fb := rfl
@[simp] theorem timerPhase_dirty (s : State) : (timerPhase s).dirty = s.dirty := rfl
@[simp] theorem timerPhase_keys (s : State) : (timerPhase s).keys = s.keys := rfl
@[simp] theorem timerPhase_fault (s : State) : (timerPhase s).fault = s.fault := rfl
@[simp] theorem timerPhase_tone (s : State) : (timerPhase s).tone = decide (s.st = 1) := rfl
@[simp] theorem timerPhase_unk (s : State) : (timerPhase s).unk = s.unk := rfl
@[simp] theorem timerPhase_draws (s : State) : (timerPhase s).draws = s.draws := rfl
@[simp] theorem timerPhase_font (s : State) : (timerPhase s).font = s.font := rfl

/-! ### `loadRegisterBlock` -/

@[simp] theorem loadRegisterBlock_pc (s : State) (x : VReg) : (loadRegisterBlock s x).pc = s.pc := rfl
@[simp] theorem loadRegisterBlock_i (s : State) (x : VReg) : (loadRegisterBlock s x).i = s.i := rfl
@[simp] theorem loadRegisterBlock_stack (s : State) (x : VReg) : (loadRegisterBlock s x).stack = s.stack := rfl
@[simp] theorem loadRegisterBlock_sp (s : State) (x : VReg) : (loadRegisterBlock s x).sp = s.sp := rfl
@[simp] theorem loadRegisterBlock_dt (s : State) (x : VReg) : (loadRegisterBlock s x).dt = s.dt := rfl
@[simp] theorem loadRegisterBlock_st (s : State) (x : VReg) : (loadRegisterBlock s x).st = s.st := rfl
@[simp] theorem loadRegisterBlock_mem (s : State) (x : VReg) : (loadRegisterBlock s x).mem = s.mem := rfl
@[simp] theorem loadRegisterBlock_fb (s : State) (x : VReg) : (loadRegisterBlock s x).fb = s.fb := rfl
@[simp] theorem loadRegisterBlock_dirty (s : State) (x : VReg) : (loadRegisterBlock s x).dirty = s.dirty := rfl
@[simp] theorem loadRegisterBlock_keys (s : State) (x : VReg) : (loadRegisterBlock s x).keys = s.keys := rfl
@[simp] theorem loadRegisterBlock_fault (s : State) (x : VReg) : (loadRegisterBlock s x).fault = s.fault := rfl
@[simp] theorem loadRegisterBlock_tone (s : State) (x : VReg) : (loadRegisterBlock s x).tone = s.tone := rfl
@[simp] theorem loadRegisterBlock_unk (s : State) (x : VReg) : (loadRegisterBlock s x).unk = s.unk := rfl
@[simp] theorem loadRegisterBlock_draws (s : State) (x : VReg) : (loadRegisterBlock s x).draws = s.draws := rfl
@[simp] theorem loadRegisterBlock_font (s : State) (x : VReg) : (loadRegisterBlock s x).font = s.font := rfl

/-! ### `storeBytes` -/

@[simp] theorem storeBytes_v (s : State) (a : Nat) (bs : List Byte) : (storeBytes s a bs).v = s.v := rfl
@[simp] theorem storeBytes_pc (s : State) (a : Nat) (bs : List Byte) : (storeBytes s a bs).pc = s.pc := rfl
@[simp] theorem storeBytes_i (s : State) (a : Nat) (bs : List Byte) : (storeBytes s a bs).i = s.i := rfl
@[simp] theorem storeBytes_stack (s : State) (a : Nat) (bs : List Byte) : (storeBytes s a bs).stack = s.stack := rfl
@[simp] theorem storeBytes_sp (s : State) (a : Nat) (bs : List Byte) : (storeBytes s a bs).sp = s.sp := rfl
@[simp] theorem storeBytes_dt (s : State) (a : Nat) (bs : List Byte) : (storeBytes s a bs).dt = s.dt := rfl
@[simp] theorem storeBytes_st (s : State) (a : Nat) (bs : List Byte) : (storeBytes s a bs).st = s.st := rfl
@[simp] theorem storeBytes_mem (s : State) (a : Nat) (bs : List Byte) :
    (storeBytes s a bs).mem = writeBytes s.font s.mem a bs := rfl
@[simp] theorem storeBytes_fb (s : State) (a : Nat) (bs : List Byte) : (storeBytes s a bs).fb = s.fb := rfl
@[simp] theorem storeBytes_dirty (s : State) (a : Nat) (bs : List Byte) : (storeBytes s a bs).dirty = s.dirty := rfl
@[simp] theorem storeBytes_keys (s : State) (a : Nat) (bs : List Byte) : (storeBytes s a bs).keys = s.keys := rfl
@[simp] theorem storeBytes_fault (s : State) (a : Nat) (bs : List Byte) : (storeBytes s a bs).fault = s.fault := rfl
@[simp] theorem storeBytes_tone (s : State) (a : Nat) (bs : List Byte) : (storeBytes s a bs).tone = s.tone := rfl
@[simp] theorem storeBytes_unk (s : State) (a : Nat) (bs : List Byte) : (storeBytes s a bs).unk = s.unk := rfl
@[simp] theorem storeBytes_draws (s : State) (a : Nat) (bs : List Byte) : (storeBytes s a bs).draws = s.draws := rfl
@[simp] theorem storeBytes_font (s : State) (a : Nat) (bs : List Byte) : (storeBytes s a bs).font = s.font := rfl

/-! ### `State.resetWith` -/

@[simp] theorem resetWith_v (font : FontRom) : (State.resetWith font).v = Vector.replicate 16 0 := rfl
@[simp] theorem resetWith_pc (font : FontRom) : (State.resetWith font).pc = 0x200 := rfl
@[simp] theorem resetWith_i (font : FontRom) : (State.resetWith font).i = 0 := rfl
@[simp] theorem resetWith_stack (font : FontRom) : (State.resetWith font).stack = Vector.replicate 16 0 := rfl
@[simp] theorem resetWith_sp (font : FontRom) : (State.resetWith font).sp = 0 := rfl
@[simp] theorem resetWith_dt (font : FontRom) : (State.resetWith font).dt = 0 := rfl
@[simp] theorem resetWith_st (font : FontRom) : (State.resetWith font).st = 0 := rfl
@[simp] theorem resetWith_mem (font : FontRom) : (State.resetWith font).mem = [] := rfl
@[simp] theorem resetWith_fb (font : FontRom) : (State.resetWith font).fb = Vector.replicate 32 0 := rfl
@[simp] theorem resetWith_dirty (font : FontRom) : (State.resetWith font).dirty = false := rfl
@[simp] theorem resetWith_keys (font : FontRom) : (State.resetWith font).keys = Vector.replicate 16 false := rfl
@[simp] theorem resetWith_fault (font : FontRom) : (State.resetWith font).fault = none := rfl
@[simp] theorem resetWith_tone (font : FontRom) : (State.resetWith font).tone = false := rfl
@[simp] theorem resetWith_unk (font : FontRom) : (State.resetWith font).unk = none := rfl
@[simp] theorem resetWith_draws (font : FontRom) : (State.resetWith font).draws = 0 := rfl
@[simp] theorem resetWith_font (font : FontRom) : (State.resetWith font).font = font := rfl

/-! ### `dirtyAckPort` -/

@[simp] theorem dirtyAckPort_v (s : State) : (dirtyAckPort s).v = s.v := rfl
@[simp] theorem dirtyAckPort_pc (s : State) : (dirtyAckPort s).pc = s.pc := rfl
@[simp] theorem dirtyAckPort_i (s : State) : (dirtyAckPort s).i = s.i := rfl
@[simp] theorem dirtyAckPort_stack (s : State) : (dirtyAckPort s).stack = s.stack := rfl
@[simp] theorem dirtyAckPort_sp (s : State) : (dirtyAckPort s).sp = s.sp := rfl
@[simp] theorem dirtyAckPort_dt (s : State) : (dirtyAckPort s).dt = s.dt := rfl
@[simp] theorem dirtyAckPort_st (s : State) : (dirtyAckPort s).st = s.st := rfl
@[simp] theorem dirtyAckPort_mem (s : State) : (dirtyAckPort s).mem = s.mem := rfl
@[simp] theorem dirtyAckPort_fb (s : State) : (dirtyAckPort s).fb = s.fb := rfl
@[simp] theorem dirtyAckPort_dirty (s : State) : (dirtyAckPort s).dirty = false := rfl
@[simp] theorem dirtyAckPort_keys (s : State) : (dirtyAckPort s).keys = s.keys := rfl
@[simp] theorem dirtyAckPort_fault (s : State) : (dirtyAckPort s).fault = s.fault := rfl
@[simp] theorem dirtyAckPort_tone (s : State) : (dirtyAckPort s).tone = s.tone := rfl
@[simp] theorem dirtyAckPort_unk (s : State) : (dirtyAckPort s).unk = s.unk := rfl
@[simp] theorem dirtyAckPort_draws (s : State) : (dirtyAckPort s).draws = s.draws := rfl
@[simp] theorem dirtyAckPort_font (s : State) : (dirtyAckPort s).font = s.font := rfl

/-! ### `keyPort` -/

@[simp] theorem keyPort_v (s : State) (k : Fin 16) (p : Bool) : (keyPort s k p).v = s.v := rfl
@[simp] theorem keyPort_pc (s : State) (k : Fin 16) (p : Bool) : (keyPort s k p).pc = s.pc := rfl
@[simp] theorem keyPort_i (s : State) (k : Fin 16) (p : Bool) : (keyPort s k p).i = s.i := rfl
@[simp] theorem keyPort_stack (s : State) (k : Fin 16) (p : Bool) : (keyPort s k p).stack = s.stack := rfl
@[simp] theorem keyPort_sp (s : State) (k : Fin 16) (p : Bool) : (keyPort s k p).sp = s.sp := rfl
@[simp] theorem keyPort_dt (s : State) (k : Fin 16) (p : Bool) : (keyPort s k p).dt = s.dt := rfl
@[simp] theorem keyPort_st (s : State) (k : Fin 16) (p : Bool) : (keyPort s k p).st = s.st := rfl
@[simp] theorem keyPort_mem (s : State) (k : Fin 16) (p : Bool) : (keyPort s k p).mem = s.mem := rfl
@[simp] theorem keyPort_fb (s : State) (k : Fin 16) (p : Bool) : (keyPort s k p).fb = s.fb := rfl
@[simp] theorem keyPort_dirty (s : State) (k : Fin 16) (p : Bool) : (keyPort s k p).dirty = s.dirty := rfl
@[simp] theorem keyPort_keys (s : State) (k : Fin 16) (p : Bool) : (keyPort s k p).keys = s.keys.set k.val p := rfl
@[simp] theorem keyPort_fault (s : State) (k : Fin 16) (p : Bool) : (keyPort s k p).fault = s.fault := rfl
@[simp] theorem keyPort_tone (s : State) (k : Fin 16) (p : Bool) : (keyPort s k p).tone = s.tone := rfl
@[simp] theorem keyPort_unk (s : State) (k : Fin 16) (p : Bool) : (keyPort s k p).unk = s.unk := rfl
@[simp] theorem keyPort_draws (s : State) (k : Fin 16) (p : Bool) : (keyPort s k p).draws = s.draws := rfl
@[simp] theorem keyPort_font (s : State) (k : Fin 16) (p : Bool) : (keyPort s k p).font = s.font := rfl

/-! ### Compositions -/

@[simp] theorem next2_eq (s : State) : next2 s = advance s 2 := rfl

@[simp] theorem skipIf_eq (s : State) (c : Bool) : skipIf s c = advance s (if c then 4 else 2) := rfl

@[simp] theorem writeResult_eq (s : State) (x : VReg) (r : Byte) :
    writeResult s x r = advance (setV s x r) 2 := rfl

@[simp] theorem writeResultThenFlag_eq (s : State) (x : VReg) (r f : Byte) :
    writeResultThenFlag s x r f = advance (setV (setV s x r) vf f) 2 := rfl

@[simp] theorem writeFlagThenResult_eq (s : State) (x : VReg) (r f : Byte) :
    writeFlagThenResult s x r f = advance (setV (setV s vf f) x r) 2 := rfl

@[simp] theorem writeIndex_eq (s : State) (w : Word) :
    writeIndex s w = advance { s with i := w } 2 := rfl

@[simp] theorem unknownOpcode_eq (s : State) (op : Word) :
    unknownOpcode s op = advance { s with unk := some ⟨op, s.pc⟩ } 2 := rfl

@[simp] theorem raiseFetch_eq (s : State) :
    raiseFetch s = raise s .fetchOutOfRange s.pc.toNat := rfl

@[simp] theorem storeBlock_eq (bs : List Byte) (s : State) :
    storeBlock bs s = advance (storeBytes s s.i.toNat bs) 2 := rfl

@[simp] theorem finishDraw_eq (s : State) (p : Framebuffer × Bool) :
    finishDraw s p = advance (setV { s with fb := p.1, dirty := true } vf (bitByte p.2)) 2 := rfl

@[simp] theorem effectiveAddress_eq (s : State) (k : Nat) :
    effectiveAddress s k = s.i.toNat + k := rfl

/-! ### Bytes of memory -/

/-- Only `font` and `mem` decide what memory reads as. -/
theorem byteAt_of_mem_eq {s t : State} (hf : t.font = s.font) (hm : t.mem = s.mem) (a : Nat) :
    byteAt t a = byteAt s a := by
  rw [byteAt, byteAt, hf, hm]

@[simp] theorem byteAt_setV (s : State) (x : VReg) (b : Byte) (a : Nat) :
    byteAt (setV s x b) a = byteAt s a := rfl

@[simp] theorem byteAt_advance (s : State) (k a : Nat) : byteAt (advance s k) a = byteAt s a := rfl

@[simp] theorem byteAt_raise (s : State) (c : FaultCause) (n a : Nat) :
    byteAt (raise s c n) a = byteAt s a := rfl

@[simp] theorem byteAt_clearOutputs (s : State) (a : Nat) :
    byteAt (clearOutputs s) a = byteAt s a := rfl

@[simp] theorem byteAt_timerPhase (s : State) (a : Nat) :
    byteAt (timerPhase s) a = byteAt s a := rfl

/-- After reset every byte reads as its reset contents. -/
@[simp] theorem byteAt_resetWith (font : FontRom) (a : Nat) :
    byteAt (State.resetWith font) a = resetByte font a := rfl

/-! ### The register file -/

/-- A written register reads as written, every other one as before. -/
@[simp] theorem getV_setV (s : State) (x r : VReg) (b : Byte) :
    getV (setV s x b) r = if r = x then b else getV s r := by
  simp only [getV, setV, Vector.getElem_set, Fin.val_inj, eq_comm]

/-- Only `v` decides what the registers read as. -/
theorem getV_of_v_eq {s t : State} (h : t.v = s.v) (r : VReg) : getV t r = getV s r := by
  simp [getV, h]

@[simp] theorem getV_advance (s : State) (k : Nat) (r : VReg) : getV (advance s k) r = getV s r := rfl

@[simp] theorem getV_raise (s : State) (c : FaultCause) (n : Nat) (r : VReg) :
    getV (raise s c n) r = getV s r := rfl

@[simp] theorem getV_clearOutputs (s : State) (r : VReg) : getV (clearOutputs s) r = getV s r := rfl

@[simp] theorem getV_timerPhase (s : State) (r : VReg) : getV (timerPhase s) r = getV s r := rfl

/-- The registers after a block load: `M[I + r]` up to `x`, above it as before. -/
@[simp] theorem getV_loadRegisterBlock (s : State) (x r : VReg) :
    getV (loadRegisterBlock s x) r
      = if r.val ≤ x.val then byteAt s (s.i.toNat + r.val) else getV s r := by
  simp [getV, loadRegisterBlock]

/-- The register file is the sixteen values its reads give. -/
theorem v_ext {s t : State} (h : ∀ r, getV t r = getV s r) : t.v = s.v :=
  Vector.ext fun k hk => h ⟨k, hk⟩

end Sys2Proof.Machine
end

