-- ==== Sys2Proof/Laws/Ops.lean ====
section
/-!
SUPPORT. For each shared operation, one lemma that says everything it can do.
-/

namespace Sys2Proof.Machine

/-! ### Arithmetic of `PC` and `I` -/

@[simp] theorem toWord_toNat (b : Byte) : b.toWord.toNat = b.toNat := by
  have := b.isLt
  simp only [Byte.toWord, BitVec.toNat_setWidth]; omega

/-- A flag byte is 1 exactly when its condition holds. -/
@[simp] theorem bitByte_eq_one (c : Bool) : bitByte c = 1 ↔ c = true := by cases c <;> decide

@[simp] theorem bitByte_eq_zero (c : Bool) : bitByte c = 0 ↔ c = false := by cases c <;> decide

/-! ### The range-checked block -/

theorem blockInRange_iff (a len : Nat) :
    blockInRange a len = true ↔ len = 0 ∨ a + len ≤ 0x1000 := by
  simp only [blockInRange, inRange, Bool.or_eq_true, beq_iff_eq, decide_eq_true_eq]; omega

theorem blockInRange_eq_false_iff (a len : Nat) :
    blockInRange a len = false ↔ 0 < len ∧ 0x1000 < a + len := by
  rw [← Bool.not_eq_true, blockInRange_iff]; omega

/-- A block in range has its effect. -/
theorem withBlock_of_in_range {s : State} {len : Nat} (f : State → State)
    (h : len = 0 ∨ s.i.toNat + len ≤ 0x1000) : withBlock s len f = f s := by
  rw [withBlock, if_pos ((blockInRange_iff ..).2 h)]

/-- A block out of range raises `DataOutOfRange` and moves nothing. -/
theorem withBlock_of_out_of_range {s : State} {len : Nat} (f : State → State)
    (h : 0 < len ∧ 0x1000 < s.i.toNat + len) :
    withBlock s len f = raise s .dataOutOfRange (max s.i.toNat 0x1000) := by
  rw [withBlock, if_neg (by rw [blockInRange_iff]; omega)]; rfl

/-- The two things a block operation can do. -/
theorem withBlock_cases (s : State) (len : Nat) (f : State → State) :
    ((len = 0 ∨ s.i.toNat + len ≤ 0x1000) ∧ withBlock s len f = f s) ∨
    ((0 < len ∧ 0x1000 < s.i.toNat + len) ∧
      withBlock s len f = raise s .dataOutOfRange (max s.i.toNat 0x1000)) := by
  by_cases h : len = 0 ∨ s.i.toNat + len ≤ 0x1000
  · exact .inl ⟨h, withBlock_of_in_range f h⟩
  · exact .inr ⟨by omega, withBlock_of_out_of_range f (by omega)⟩

/-! ### The call stack -/

/-- The two things a call can do. -/
theorem callTo_cases (s : State) (w : Word) :
    (∃ h : s.sp.val < 16, callTo s w =
      { s with stack := s.stack.set s.sp.val s.pc h, sp := ⟨s.sp.val + 1, by omega⟩, pc := w }) ∨
    (s.sp.val = 16 ∧ callTo s w = raise s .stackOverflow 16) := by
  by_cases h : s.sp.val < 16
  · exact .inl ⟨h, by rw [callTo, dif_pos h]⟩
  · have e : s.sp.val = 16 := by have := s.sp.isLt; omega
    exact .inr ⟨e, by rw [callTo, dif_neg h, e]⟩

/-- The two things a return can do. -/
theorem returnFromCall_cases (s : State) :
    (∃ h : 0 < s.sp.val, returnFromCall s =
      { s with sp := ⟨s.sp.val - 1, by omega⟩, pc := s.stack[s.sp.val - 1]'(by omega) + 2 }) ∨
    (s.sp.val = 0 ∧ returnFromCall s = raise s .stackUnderflow 0) := by
  by_cases h : 0 < s.sp.val
  · exact .inl ⟨h, by rw [returnFromCall, dif_pos h]; rfl⟩
  · have e : s.sp.val = 0 := by omega
    exact .inr ⟨e, by rw [returnFromCall, dif_neg h, e]⟩

/-! ### The key scan -/

/-- The scan order lists every key. -/
theorem mem_keyScanOrder (k : Fin 16) : k ∈ keyScanOrder := by revert k; decide

/-- The scan order rises. -/
theorem keyScanOrder_pairwise : keyScanOrder.Pairwise (· < ·) := by decide

/-- The scan finds nothing exactly when no key is down. -/
theorem scanKeys_eq_none_iff (s : State) : scanKeys s = none ↔ ∀ k, keyDown s k = false := by
  simp only [scanKeys, List.find?_eq_none, Bool.not_eq_true]
  exact ⟨fun h k => h k (mem_keyScanOrder k), fun h k _ => h k⟩

/-- The scan finds the least pressed key. -/
theorem scanKeys_eq_some_iff (s : State) (k : Fin 16) :
    scanKeys s = some k ↔ keyDown s k = true ∧ ∀ j < k, keyDown s j = false := by
  simp only [scanKeys, List.find?_eq_some_iff_append, Bool.not_eq_true']
  constructor
  · rintro ⟨hk, as, bs, he, has⟩
    refine ⟨hk, fun j hj => ?_⟩
    have hp := keyScanOrder_pairwise
    have hm := mem_keyScanOrder j
    rw [he] at hp hm
    rcases List.mem_append.1 hm with h | h
    · exact has j h
    · have hb := (List.pairwise_append.1 hp).2.1
      rcases List.mem_cons.1 h with rfl | h
      · exact absurd hj (lt_irrefl _)
      · exact absurd (lt_trans hj ((List.pairwise_cons.1 hb).1 j h)) (lt_irrefl _)
  · rintro ⟨hk, hlow⟩
    obtain ⟨as, bs, he⟩ := List.append_of_mem (mem_keyScanOrder k)
    refine ⟨hk, as, bs, he, fun j hj => hlow j ?_⟩
    have hp := keyScanOrder_pairwise
    rw [he] at hp
    exact (List.pairwise_append.1 hp).2.2 j hj k List.mem_cons_self

/-! ### Timers -/

/-- A timer counts down to 0 and stays there. -/
@[simp] theorem countDown_toNat (t : Byte) : (countDown t).toNat = t.toNat - 1 := by
  have := t.isLt
  by_cases h : t = 0
  · subst h; rfl
  · have h0 : t.toNat ≠ 0 := fun e => h (BitVec.eq_of_toNat_eq (by simpa using e))
    rw [countDown, if_neg h, BitVec.toNat_sub]
    have : (1 : Byte).toNat = 1 := rfl
    omega

/-! ### Blocks of registers and of digits -/

@[simp] theorem registerBlock_length (s : State) (x : VReg) :
    (registerBlock s x).length = x.val + 1 := by
  have := x.isLt
  simp only [registerBlock, blockLength, List.length_take, Vector.length_toList]; omega

/-- Byte `k` of a register block is `V[k]`. -/
theorem registerBlock_getD (s : State) (x k : VReg) (h : k.val ≤ x.val) :
    (registerBlock s x).getD k.val 0 = getV s k := by
  have hk : k.val < x.val + 1 := by omega
  rw [List.getD_eq_getElem _ _ (by simpa using hk)]
  simp [registerBlock, getV]

@[simp] theorem bcdDigits_length (a : Byte) : (bcdDigits a).length = 3 := rfl

/-! ### The output and the timer phase -/

@[simp] theorem halted_eq_false_iff (s : State) : halted s = false ↔ s.fault = none := by
  simp [halted]

@[simp] theorem halted_eq_true_iff (s : State) : halted s = true ↔ s.fault ≠ none := by
  cases h : s.fault <;> simp [halted, h]

theorem finishStep_of_running {s : State} (h : s.fault = none) : finishStep s = timerPhase s := by
  simp [finishStep, halted, h]

theorem finishStep_of_fault {s : State} (h : s.fault ≠ none) : finishStep s = s := by
  rw [finishStep, if_pos ((halted_eq_true_iff s).2 h)]

/-- The end of a step never changes `FAULT`. -/
@[simp] theorem finishStep_fault (s : State) : (finishStep s).fault = s.fault := by
  rw [finishStep]; split <;> rfl

end Sys2Proof.Machine
end

