-- ==== Sys2Proof/Laws/Display.lean ====
section
/-!
SUPPORT. What the pixel loops of `DRW` do to one pixel.
-/

namespace Sys2Proof.Machine

/-- A toggled pixel changes, every other one stays. -/
theorem pixel_togglePixel (fb : Framebuffer) (row row' : Fin 32) (col col' : Fin 64) :
    pixel (togglePixel fb row col) row' col'
      = (pixel fb row' col' ^^ decide (row' = row ∧ col' = col)) := by
  have hc : col.val < 64 := col.isLt
  simp only [pixel, togglePixel, Vector.getElem_set]
  by_cases h : row = row'
  · subst h
    simp only [if_true, BitVec.getLsbD_xor, BitVec.getLsbD_twoPow, true_and, hc]
    congr 1
    simp [Fin.ext_iff, eq_comm]
  · have h' : ¬ row.val = row'.val := fun e => h (Fin.ext e)
    have h'' : ¬ row' = row := fun e => h e.symm
    simp [h', h'']

/-- The cleared framebuffer has no pixel set. -/
theorem pixel_replicate (row : Fin 32) (col : Fin 64) :
    pixel (Vector.replicate 32 0) row col = false := by
  simp [pixel]

/-- Two framebuffers with the same pixels are equal. -/
theorem fb_ext {fb fb' : Framebuffer} (h : ∀ row col, pixel fb row col = pixel fb' row col) :
    fb = fb' :=
  Vector.ext fun r hr => BitVec.eq_of_getLsbD_eq fun c hc => h ⟨r, hr⟩ ⟨c, hc⟩

/-- Sprite columns of one row fall on distinct screen columns. -/
theorem spriteCol_injective (vx : Byte) {c d : Nat} (hc : c < 64) (hd : d < 64)
    (h : spriteCol vx c = spriteCol vx d) : c = d := by
  have := congrArg Fin.val h
  simp only [spriteCol, Fin.val_ofNat] at this
  omega

/-- Sprite rows fall on distinct screen rows. -/
theorem spriteRow_injective (vy : Byte) {q r : Nat} (hq : q < 32) (hr : r < 32)
    (h : spriteRow vy q = spriteRow vy r) : q = r := by
  have := congrArg Fin.val h
  simp only [spriteRow, Fin.val_ofNat] at this
  omega

/-- The pixels one sprite byte covers with its first `k` columns. -/
def RowCovers (vx : Byte) (row : Fin 32) (b : Byte) (k : Nat) (row' : Fin 32) (col' : Fin 64) :
    Prop := row' = row ∧ ∃ c < k, col' = spriteCol vx c ∧ spriteBit b c = true

/-- The pixels the first `n` rows of the sprite at `I` cover. -/
def SpriteCovers (s : State) (vx vy : Byte) (n : Nat) (row' : Fin 32) (col' : Fin 64) : Prop :=
  ∃ r < n, RowCovers vx (spriteRow vy r) (byteAt s (s.i.toNat + r)) 8 row' col'

theorem drawRow_succ (vx : Byte) (row : Fin 32) (b : Byte) (p : Framebuffer × Bool) (k : Nat) :
    drawRow vx row b p (k + 1) =
      if spriteBit b k then drawPixel (drawRow vx row b p k) row (spriteCol vx k)
      else drawRow vx row b p k := by
  simp [drawRow, List.range_succ]

theorem drawSprite_succ (s : State) (vx vy : Byte) (p : Framebuffer × Bool) (n : Nat) :
    drawSprite s vx vy p (n + 1) =
      drawRow vx (spriteRow vy n) (byteAt s (s.i.toNat + n)) (drawSprite s vx vy p n) 8 := by
  simp [drawSprite, List.range_succ]

/-- One sprite byte: exactly the covered pixels change, and the collision records whether one of
them was set. -/
theorem drawRow_spec (vx : Byte) (row : Fin 32) (b : Byte) (p : Framebuffer × Bool) {k : Nat}
    (hk : k ≤ 64) :
    (∀ row' col', pixel (drawRow vx row b p k).1 row' col' = true ↔
      ¬ (pixel p.1 row' col' = true ↔ RowCovers vx row b k row' col')) ∧
    ((drawRow vx row b p k).2 = true ↔ p.2 = true ∨
      ∃ row' col', RowCovers vx row b k row' col' ∧ pixel p.1 row' col' = true) := by
  induction k with
  | zero => simp [drawRow, RowCovers]
  | succ k ih =>
    obtain ⟨ihp, ihc⟩ := ih (by omega)
    rw [drawRow_succ]
    by_cases hb : spriteBit b k = true
    · rw [if_pos hb]
      have hstep : ∀ row' col', RowCovers vx row b (k + 1) row' col' ↔
          RowCovers vx row b k row' col' ∨ (row' = row ∧ col' = spriteCol vx k) := by
        intro row' col'
        simp only [RowCovers]
        constructor
        · rintro ⟨hr, c, hc, hcol, hbit⟩
          rcases Nat.lt_succ_iff_lt_or_eq.1 hc with hc | rfl
          · exact .inl ⟨hr, c, hc, hcol, hbit⟩
          · exact .inr ⟨hr, hcol⟩
        · rintro (⟨hr, c, hc, hcol, hbit⟩ | ⟨hr, hcol⟩)
          · exact ⟨hr, c, by omega, hcol, hbit⟩
          · exact ⟨hr, k, by omega, hcol, hb⟩
      have hnot : ¬ RowCovers vx row b k row (spriteCol vx k) := by
        rintro ⟨-, c, hc, hcol, -⟩
        have := spriteCol_injective vx (by omega) (by omega) hcol
        omega
      have hold : pixel (drawRow vx row b p k).1 row (spriteCol vx k) = true ↔
          pixel p.1 row (spriteCol vx k) = true := by
        rw [ihp]; simp only [hnot, iff_false, not_not]
      refine ⟨fun row' col' => ?_, ?_⟩
      · rw [hstep, drawPixel, pixel_togglePixel]
        by_cases he : row' = row ∧ col' = spriteCol vx k
        · obtain ⟨rfl, rfl⟩ := he
          simp only [and_self, decide_true, Bool.xor_true, Bool.not_eq_true', or_true, iff_true,
            ← Bool.not_eq_true, hold]
        · simp only [he, decide_false, Bool.xor_false, or_false]
          exact ihp row' col'
      · rw [drawPixel, Bool.or_eq_true, ihc, hold]
        constructor
        · rintro ((h | ⟨r, c, hcov, hpx⟩) | h)
          · exact .inl h
          · exact .inr ⟨r, c, (hstep r c).2 (.inl hcov), hpx⟩
          · exact .inr ⟨row, _, (hstep row _).2 (.inr ⟨rfl, rfl⟩), h⟩
        · rintro (h | ⟨r, c, hcov, hpx⟩)
          · exact .inl (.inl h)
          · rcases (hstep r c).1 hcov with hcov | ⟨rfl, rfl⟩
            · exact .inl (.inr ⟨r, c, hcov, hpx⟩)
            · exact .inr hpx
    · rw [if_neg hb]
      have hstep : ∀ row' col', RowCovers vx row b (k + 1) row' col' ↔
          RowCovers vx row b k row' col' := by
        intro row' col'
        simp only [RowCovers]
        constructor
        · rintro ⟨hr, c, hc, hcol, hbit⟩
          rcases Nat.lt_succ_iff_lt_or_eq.1 hc with hc | rfl
          · exact ⟨hr, c, hc, hcol, hbit⟩
          · exact absurd hbit hb
        · rintro ⟨hr, c, hc, hcol, hbit⟩
          exact ⟨hr, c, by omega, hcol, hbit⟩
      simp only [hstep]
      exact ⟨ihp, ihc⟩

/-- The whole sprite: exactly the covered pixels change, and the collision records whether one of
them was set. -/
theorem drawSprite_spec (s : State) (vx vy : Byte) (p : Framebuffer × Bool) {n : Nat}
    (hn : n ≤ 32) :
    (∀ row' col', pixel (drawSprite s vx vy p n).1 row' col' = true ↔
      ¬ (pixel p.1 row' col' = true ↔ SpriteCovers s vx vy n row' col')) ∧
    ((drawSprite s vx vy p n).2 = true ↔ p.2 = true ∨
      ∃ row' col', SpriteCovers s vx vy n row' col' ∧ pixel p.1 row' col' = true) := by
  induction n with
  | zero => simp [drawSprite, SpriteCovers]
  | succ n ih =>
    obtain ⟨ihp, ihc⟩ := ih (by omega)
    rw [drawSprite_succ]
    obtain ⟨hp, hc⟩ := drawRow_spec vx (spriteRow vy n) (byteAt s (s.i.toNat + n))
      (drawSprite s vx vy p n) (k := 8) (by omega)
    have hstep : ∀ row' col', SpriteCovers s vx vy (n + 1) row' col' ↔
        SpriteCovers s vx vy n row' col' ∨
        RowCovers vx (spriteRow vy n) (byteAt s (s.i.toNat + n)) 8 row' col' := by
      intro row' col'
      constructor
      · rintro ⟨r, hr, h⟩
        rcases Nat.lt_succ_iff_lt_or_eq.1 hr with hr | rfl
        · exact .inl ⟨r, hr, h⟩
        · exact .inr h
      · rintro (⟨r, hr, h⟩ | h)
        · exact ⟨r, by omega, h⟩
        · exact ⟨n, by omega, h⟩
    have hdisj : ∀ row' col',
        RowCovers vx (spriteRow vy n) (byteAt s (s.i.toNat + n)) 8 row' col' →
        ¬ SpriteCovers s vx vy n row' col' := by
      rintro row' col' ⟨rfl, -⟩ ⟨r, hr, hrow, -⟩
      have := spriteRow_injective vy (by omega) (by omega) hrow
      omega
    have hold : ∀ row' col',
        RowCovers vx (spriteRow vy n) (byteAt s (s.i.toNat + n)) 8 row' col' →
        (pixel (drawSprite s vx vy p n).1 row' col' = true ↔ pixel p.1 row' col' = true) := by
      intro row' col' h
      rw [ihp]; simp only [hdisj row' col' h, iff_false, not_not]
    refine ⟨fun row' col' => ?_, ?_⟩
    · rw [hp, hstep]
      by_cases h : RowCovers vx (spriteRow vy n) (byteAt s (s.i.toNat + n)) 8 row' col'
      · simp only [h, iff_true, or_true, hold row' col' h]
      · simp only [h, iff_false, not_not, or_false]
        exact ihp row' col'
    · rw [hc, ihc]
      constructor
      · rintro ((h | ⟨r, c, hcov, hpx⟩) | ⟨r, c, hcov, hpx⟩)
        · exact .inl h
        · exact .inr ⟨r, c, (hstep r c).2 (.inl hcov), hpx⟩
        · exact .inr ⟨r, c, (hstep r c).2 (.inr hcov), (hold r c hcov).1 hpx⟩
      · rintro (h | ⟨r, c, hcov, hpx⟩)
        · exact .inl (.inl h)
        · rcases (hstep r c).1 hcov with hcov | hcov
          · exact .inl (.inr ⟨r, c, hcov, hpx⟩)
          · exact .inr ⟨r, c, hcov, (hold r c hcov).2 hpx⟩

end Sys2Proof.Machine
end

