-- ==== Sys2Proof/Laws/PerInstr.lean ====
section
/-!
SUPPORT. Statements made for every instruction, one lemma per constructor.

Family `TopNibble`: the encoding of a well-formed instruction lies in the class R85 gives it.
-/

namespace Sys2Proof.Laws.TopNibble

/-- The class nibble `op[15:12]` of each instruction (spec/30_encoding.md R85, R86). -/
def classNibble : Instr → Nat
  | .cls => 0x0
  | .ret => 0x0
  | .jp _ => 0x1
  | .call _ => 0x2
  | .seImm _ _ => 0x3
  | .sneImm _ _ => 0x4
  | .seReg _ _ => 0x5
  | .ldImm _ _ => 0x6
  | .addImm _ _ => 0x7
  | .ldReg _ _ => 0x8
  | .orReg _ _ => 0x8
  | .andReg _ _ => 0x8
  | .xorReg _ _ => 0x8
  | .addReg _ _ => 0x8
  | .subReg _ _ => 0x8
  | .shr _ _ => 0x8
  | .subnReg _ _ => 0x8
  | .shl _ _ => 0x8
  | .sneReg _ _ => 0x9
  | .ldI _ => 0xA
  | .jpV0 _ => 0xB
  | .rnd _ _ => 0xC
  | .drw _ _ _ => 0xD
  | .skp _ => 0xE
  | .sknp _ => 0xE
  | .ldVxDt _ => 0xF
  | .ldVxK _ => 0xF
  | .ldDtVx _ => 0xF
  | .ldStVx _ => 0xF
  | .addIVx _ => 0xF
  | .ldFVx _ => 0xF
  | .ldBVx _ => 0xF
  | .ldMemVx _ => 0xF
  | .ldVxMem _ => 0xF

/-- The top nibble of the opcode is the class nibble. -/
def Statement (i : Instr) : Prop := i.WellFormed → slice (encode i) 12 4 = classNibble i

theorem cls : Statement (.cls) := fun _ => rfl

theorem ret : Statement (.ret) := fun _ => rfl

theorem jp (nnn : Nat) : Statement (.jp nnn) := fun h => by
  have hn : nnn < 4096 := by simpa using h
  have e := wordNNN_toNat (c := 1) (by omega) hn
  simp only [encode, slice, e, classNibble]; omega

theorem call (nnn : Nat) : Statement (.call nnn) := fun h => by
  have hn : nnn < 4096 := by simpa using h
  have e := wordNNN_toNat (c := 2) (by omega) hn
  simp only [encode, slice, e, classNibble]; omega

theorem seImm (x : VReg) (nn : Byte) : Statement (.seImm x nn) := fun _ => by
  have e := wordXNN_toNat (c := 3) (by omega) x nn
  have := x.isLt; have := nn.isLt
  simp only [encode, slice, e, classNibble]; omega

theorem sneImm (x : VReg) (nn : Byte) : Statement (.sneImm x nn) := fun _ => by
  have e := wordXNN_toNat (c := 4) (by omega) x nn
  have := x.isLt; have := nn.isLt
  simp only [encode, slice, e, classNibble]; omega

theorem seReg (x y : VReg) : Statement (.seReg x y) := fun _ => by
  have e := wordXYN_toNat (c := 5) (by omega) x y (n := 0x0) (by omega)
  have := x.isLt; have := y.isLt
  simp only [encode, slice, e, classNibble]; omega

theorem ldImm (x : VReg) (nn : Byte) : Statement (.ldImm x nn) := fun _ => by
  have e := wordXNN_toNat (c := 6) (by omega) x nn
  have := x.isLt; have := nn.isLt
  simp only [encode, slice, e, classNibble]; omega

theorem addImm (x : VReg) (nn : Byte) : Statement (.addImm x nn) := fun _ => by
  have e := wordXNN_toNat (c := 7) (by omega) x nn
  have := x.isLt; have := nn.isLt
  simp only [encode, slice, e, classNibble]; omega

theorem ldReg (x y : VReg) : Statement (.ldReg x y) := fun _ => by
  have e := wordXYN_toNat (c := 8) (by omega) x y (n := 0x0) (by omega)
  have := x.isLt; have := y.isLt
  simp only [encode, slice, e, classNibble]; omega

theorem orReg (x y : VReg) : Statement (.orReg x y) := fun _ => by
  have e := wordXYN_toNat (c := 8) (by omega) x y (n := 0x1) (by omega)
  have := x.isLt; have := y.isLt
  simp only [encode, slice, e, classNibble]; omega

theorem andReg (x y : VReg) : Statement (.andReg x y) := fun _ => by
  have e := wordXYN_toNat (c := 8) (by omega) x y (n := 0x2) (by omega)
  have := x.isLt; have := y.isLt
  simp only [encode, slice, e, classNibble]; omega

theorem xorReg (x y : VReg) : Statement (.xorReg x y) := fun _ => by
  have e := wordXYN_toNat (c := 8) (by omega) x y (n := 0x3) (by omega)
  have := x.isLt; have := y.isLt
  simp only [encode, slice, e, classNibble]; omega

theorem addReg (x y : VReg) : Statement (.addReg x y) := fun _ => by
  have e := wordXYN_toNat (c := 8) (by omega) x y (n := 0x4) (by omega)
  have := x.isLt; have := y.isLt
  simp only [encode, slice, e, classNibble]; omega

theorem subReg (x y : VReg) : Statement (.subReg x y) := fun _ => by
  have e := wordXYN_toNat (c := 8) (by omega) x y (n := 0x5) (by omega)
  have := x.isLt; have := y.isLt
  simp only [encode, slice, e, classNibble]; omega

theorem shr (x y : VReg) : Statement (.shr x y) := fun _ => by
  have e := wordXYN_toNat (c := 8) (by omega) x y (n := 0x6) (by omega)
  have := x.isLt; have := y.isLt
  simp only [encode, slice, e, classNibble]; omega

theorem subnReg (x y : VReg) : Statement (.subnReg x y) := fun _ => by
  have e := wordXYN_toNat (c := 8) (by omega) x y (n := 0x7) (by omega)
  have := x.isLt; have := y.isLt
  simp only [encode, slice, e, classNibble]; omega

theorem shl (x y : VReg) : Statement (.shl x y) := fun _ => by
  have e := wordXYN_toNat (c := 8) (by omega) x y (n := 0xE) (by omega)
  have := x.isLt; have := y.isLt
  simp only [encode, slice, e, classNibble]; omega

theorem sneReg (x y : VReg) : Statement (.sneReg x y) := fun _ => by
  have e := wordXYN_toNat (c := 9) (by omega) x y (n := 0x0) (by omega)
  have := x.isLt; have := y.isLt
  simp only [encode, slice, e, classNibble]; omega

theorem ldI (nnn : Nat) : Statement (.ldI nnn) := fun h => by
  have hn : nnn < 4096 := by simpa using h
  have e := wordNNN_toNat (c := 10) (by omega) hn
  simp only [encode, slice, e, classNibble]; omega

theorem jpV0 (nnn : Nat) : Statement (.jpV0 nnn) := fun h => by
  have hn : nnn < 4096 := by simpa using h
  have e := wordNNN_toNat (c := 11) (by omega) hn
  simp only [encode, slice, e, classNibble]; omega

theorem rnd (x : VReg) (nn : Byte) : Statement (.rnd x nn) := fun _ => by
  have e := wordXNN_toNat (c := 12) (by omega) x nn
  have := x.isLt; have := nn.isLt
  simp only [encode, slice, e, classNibble]; omega

theorem drw (x y : VReg) (n : Nat) : Statement (.drw x y n) := fun h => by
  have hn : n < 16 := by simpa using h
  have e := wordXYN_toNat (c := 13) (by omega) x y hn
  have := x.isLt; have := y.isLt
  simp only [encode, slice, e, classNibble]; omega

theorem skp (x : VReg) : Statement (.skp x) := fun _ => by
  have e := wordX_toNat (c := 14) (by omega) x (sel := 0x9E) (by omega)
  have := x.isLt
  simp only [encode, slice, e, classNibble]; omega

theorem sknp (x : VReg) : Statement (.sknp x) := fun _ => by
  have e := wordX_toNat (c := 14) (by omega) x (sel := 0xA1) (by omega)
  have := x.isLt
  simp only [encode, slice, e, classNibble]; omega

theorem ldVxDt (x : VReg) : Statement (.ldVxDt x) := fun _ => by
  have e := wordX_toNat (c := 15) (by omega) x (sel := 0x07) (by omega)
  have := x.isLt
  simp only [encode, slice, e, classNibble]; omega

theorem ldVxK (x : VReg) : Statement (.ldVxK x) := fun _ => by
  have e := wordX_toNat (c := 15) (by omega) x (sel := 0x0A) (by omega)
  have := x.isLt
  simp only [encode, slice, e, classNibble]; omega

theorem ldDtVx (x : VReg) : Statement (.ldDtVx x) := fun _ => by
  have e := wordX_toNat (c := 15) (by omega) x (sel := 0x15) (by omega)
  have := x.isLt
  simp only [encode, slice, e, classNibble]; omega

theorem ldStVx (x : VReg) : Statement (.ldStVx x) := fun _ => by
  have e := wordX_toNat (c := 15) (by omega) x (sel := 0x18) (by omega)
  have := x.isLt
  simp only [encode, slice, e, classNibble]; omega

theorem addIVx (x : VReg) : Statement (.addIVx x) := fun _ => by
  have e := wordX_toNat (c := 15) (by omega) x (sel := 0x1E) (by omega)
  have := x.isLt
  simp only [encode, slice, e, classNibble]; omega

theorem ldFVx (x : VReg) : Statement (.ldFVx x) := fun _ => by
  have e := wordX_toNat (c := 15) (by omega) x (sel := 0x29) (by omega)
  have := x.isLt
  simp only [encode, slice, e, classNibble]; omega

theorem ldBVx (x : VReg) : Statement (.ldBVx x) := fun _ => by
  have e := wordX_toNat (c := 15) (by omega) x (sel := 0x33) (by omega)
  have := x.isLt
  simp only [encode, slice, e, classNibble]; omega

theorem ldMemVx (x : VReg) : Statement (.ldMemVx x) := fun _ => by
  have e := wordX_toNat (c := 15) (by omega) x (sel := 0x55) (by omega)
  have := x.isLt
  simp only [encode, slice, e, classNibble]; omega

theorem ldVxMem (x : VReg) : Statement (.ldVxMem x) := fun _ => by
  have e := wordX_toNat (c := 15) (by omega) x (sel := 0x65) (by omega)
  have := x.isLt
  simp only [encode, slice, e, classNibble]; omega

end Sys2Proof.Laws.TopNibble
end

