-- ==== Sys2Proof/Laws/Step.lean ====
section
/-!
SUPPORT. What one step can do, said once; and that an instruction placed by `withFetchWord` is the
one the next step fetches.
-/

namespace Sys2Proof.Machine

/-- A halted core does nothing. -/
theorem step_of_halted {s : State} (h : s.fault ≠ none) : step s = .next s := by
  simp [step, stepCycle, (halted_eq_true_iff s).2 h]

/-- A running core clears the outputs and runs the cycle. -/
theorem step_of_running {s : State} (h : s.fault = none) : step s = runStep (clearOutputs s) := by
  simp [step, stepCycle, (halted_eq_false_iff s).2 h]

@[simp] theorem fetchOpcode_clearOutputs (s : State) :
    fetchOpcode (clearOutputs s) = fetchOpcode s := rfl

theorem fetchOpcode_eq_none_iff (s : State) : fetchOpcode s = none ↔ 0xFFF ≤ s.pc.toNat := by
  by_cases h : inRange (s.pc.toNat + 1) = true
  · rw [fetchOpcode, if_pos h]
    simp only [inRange, decide_eq_true_eq] at h
    simp only [reduceCtorEq, false_iff]; omega
  · rw [fetchOpcode, if_neg h]
    simp only [inRange, decide_eq_true_eq] at h
    simp only [true_iff]; omega

theorem fetchOpcode_isSome {s : State} {op : Word} (h : fetchOpcode s = some op) :
    s.pc.toNat ≤ 0xFFE := by
  have := mt (fetchOpcode_eq_none_iff s).2 (by rw [h]; simp)
  omega

/-- A fetch out of range latches `FetchOutOfRange(PC)`. -/
theorem step_of_fetch_none {s : State} (h : s.fault = none) (hf : fetchOpcode s = none) :
    step s = .next (raise (clearOutputs s) .fetchOutOfRange s.pc.toNat) := by
  rw [step_of_running h, runStep, fetchOpcode_clearOutputs, hf]; rfl

/-- A decoded instruction is executed, and the timer phase follows unless it raised a fault. -/
theorem step_of_decode_ok {s : State} {op : Word} {i : Instr} (h : s.fault = none)
    (hf : fetchOpcode s = some op) (hd : decode op = .ok i) :
    step s = finishResult (exec i (clearOutputs s)) := by
  simp only [step_of_running h, runStep, fetchOpcode_clearOutputs, hf, runOpcode, hd]

/-- An unknown opcode is reported and skipped, and the timer phase follows. -/
theorem step_of_decode_error {s : State} {op : Word} {e : DecodeError} (h : s.fault = none)
    (hf : fetchOpcode s = some op) (hd : decode op = .error e) :
    step s = .next (timerPhase (unknownOpcode (clearOutputs s) op)) := by
  simp only [step_of_running h, runStep, fetchOpcode_clearOutputs, hf, runOpcode, hd]
  rw [finishStep_of_running]; exact h

/-- Everything a step can do. -/
theorem step_cases (s : State) :
    (s.fault ≠ none ∧ step s = .next s) ∨
    (s.fault = none ∧ fetchOpcode s = none ∧
      step s = .next (raise (clearOutputs s) .fetchOutOfRange s.pc.toNat)) ∨
    (∃ op e, s.fault = none ∧ fetchOpcode s = some op ∧ decode op = .error e ∧
      step s = .next (timerPhase (unknownOpcode (clearOutputs s) op))) ∨
    (∃ op i, s.fault = none ∧ fetchOpcode s = some op ∧ decode op = .ok i ∧
      step s = finishResult (exec i (clearOutputs s))) := by
  by_cases h : s.fault = none
  · cases hf : fetchOpcode s with
    | none => exact .inr (.inl ⟨h, hf ▸ rfl, step_of_fetch_none h hf⟩)
    | some op =>
      cases hd : decode op with
      | error e => exact .inr (.inr (.inl ⟨op, e, h, rfl, hd, step_of_decode_error h hf hd⟩))
      | ok i => exact .inr (.inr (.inr ⟨op, i, h, rfl, hd, step_of_decode_ok h hf hd⟩))
  · exact .inl ⟨h, step_of_halted h⟩

/-- A block that can raise keeps every field the raise and the effect both keep. -/
theorem withBlock_keeps {α : Type} (g : State → α) (s : State) (len : Nat) (f : State → State)
    (hr : g (raise s .dataOutOfRange (dataFaultInfo s)) = g s) (hf : g (f s) = g s) :
    g (withBlock s len f) = g s := by
  rw [withBlock]; split
  · exact hf
  · exact hr

/-- The instruction placed by `withFetchWord` is what the next step fetches. -/
theorem fetchOpcode_withFetchWord {s : State} (hm : MemWf s) (nbits w : Nat) :
    fetchOpcode (s.withFetchWord nbits w) = some (tableOpcode nbits w) := by
  have hp : inRange ((s.withFetchWord nbits w).pc.toNat + 1) = true := by
    simp only [State.withFetchWord, placeOpcode]
    split
    · assumption
    · exact (rfl : inRange (Config.progBase + 1) = true)
  have hlt : (s.withFetchWord nbits w).pc.toNat + 1 ≤ 0xFFF := by simpa [inRange] using hp
  have hmem : ∀ c, byteAt (s.withFetchWord nbits w) c
      = byteAt (storeBytes s (s.withFetchWord nbits w).pc.toNat
          [highByte (tableOpcode nbits w), lowByte (tableOpcode nbits w)]) c := fun _ => rfl
  have hb : (s.withFetchWord nbits w).pc.toNat
      + [highByte (tableOpcode nbits w), lowByte (tableOpcode nbits w)].length
      ≤ Config.memSize := by simp; omega
  rw [fetchOpcode, if_pos hp, hmem, hmem, byteAt_storeBytes _ hm hb, byteAt_storeBytes _ hm hb]
  rw [if_pos (by simp), if_pos (by simp)]
  simp

end Sys2Proof.Machine
end

