-- ==== Sys2Proof/Tests/Slice0.lean ====
section
/-!
SUPPORT. The model's own tests. Expected values come from spec/95_test_vectors.md (the vector is named
in each comment) or, in part 4, witness that the hypotheses of a statement can be met together.
-/

namespace Sys2Proof.Tests

open Sys2Proof.Machine Sys2Proof.Claims

/-! ### 1. WellFormed refuses ill-formed terms -/

theorem test_wf_jp_refuses_13_bits : ¬ (Instr.jp 0x1000).WellFormed := by decide
theorem test_wf_call_refuses_13_bits : ¬ (Instr.call 0x1000).WellFormed := by decide
theorem test_wf_ldI_refuses_13_bits : ¬ (Instr.ldI 0x1000).WellFormed := by decide
theorem test_wf_jpV0_refuses_13_bits : ¬ (Instr.jpV0 0x1000).WellFormed := by decide
theorem test_wf_drw_refuses_5_bits : ¬ (Instr.drw 0 0 16).WellFormed := by decide
theorem test_wf_accepts_the_largest_fields :
    (Instr.jp 0xFFF).WellFormed ∧ (Instr.drw 15 15 15).WellFormed := by decide

/-! ### 2. Words written out from the patterns of R86 (DV1 to DV24) -/

/-- DV1, DV2, DV4, DV5, DV17, DV18 -/
theorem test_decode_fixed_and_address_forms :
    decode 0b0000000011100000 = .ok .cls ∧ decode 0b0000000011101110 = .ok .ret ∧
    decode 0b0001101010111100 = .ok (.jp 0xABC) ∧ decode 0b0010111111111110 = .ok (.call 0xFFE) ∧
    decode 0b1010000100100011 = .ok (.ldI 0x123) ∧ decode 0b1011000100100011 = .ok (.jpV0 0x123) := by
  decide

/-- DV6, DV7, DV8, DV10, DV11, DV15, DV19, DV20 -/
theorem test_decode_register_and_immediate_forms :
    decode 0b0011101001111111 = .ok (.seImm 10 0x7F) ∧
    decode 0b0100101100000000 = .ok (.sneImm 11 0x00) ∧
    decode 0b0101110011010000 = .ok (.seReg 12 13) ∧
    decode 0b0110111000010010 = .ok (.ldImm 14 0x12) ∧
    decode 0b0111111111111111 = .ok (.addImm 15 0xFF) ∧
    decode 0b1001101010110000 = .ok (.sneReg 10 11) ∧
    decode 0b1100010111110000 = .ok (.rnd 5 0xF0) ∧
    decode 0b1101101010111100 = .ok (.drw 10 11 12) := by
  decide

/-- DV12, DV13 -/
theorem test_decode_alu_forms :
    decode 0b1000000100100000 = .ok (.ldReg 1 2) ∧ decode 0b1000000100100001 = .ok (.orReg 1 2) ∧
    decode 0b1000000100100010 = .ok (.andReg 1 2) ∧ decode 0b1000000100100011 = .ok (.xorReg 1 2) ∧
    decode 0b1000000100100100 = .ok (.addReg 1 2) ∧ decode 0b1000000100100101 = .ok (.subReg 1 2) ∧
    decode 0b1000000100100110 = .ok (.shr 1 2) ∧ decode 0b1000000100100111 = .ok (.subnReg 1 2) ∧
    decode 0b1000000100101110 = .ok (.shl 1 2) := by
  decide

/-- DV21, DV23 -/
theorem test_decode_key_timer_and_memory_forms :
    decode 0b1110000010011110 = .ok (.skp 0) ∧ decode 0b1110111110100001 = .ok (.sknp 15) ∧
    decode 0b1111000000000111 = .ok (.ldVxDt 0) ∧ decode 0b1111000100001010 = .ok (.ldVxK 1) ∧
    decode 0b1111001000010101 = .ok (.ldDtVx 2) ∧ decode 0b1111001100011000 = .ok (.ldStVx 3) ∧
    decode 0b1111010000011110 = .ok (.addIVx 4) ∧ decode 0b1111010100101001 = .ok (.ldFVx 5) ∧
    decode 0b1111011000110011 = .ok (.ldBVx 6) ∧ decode 0b1111011101010101 = .ok (.ldMemVx 7) ∧
    decode 0b1111100001100101 = .ok (.ldVxMem 8) := by
  decide

/-- DV3, DV9, DV14, DV16, DV22, DV24: what is no instruction -/
theorem test_decode_rejects_unknown_words :
    (([0x00E1, 0x00EF, 0x00FE, 0x0000, 0x0200, 0x0FFF, 0x5CD1, 0x5CDF, 0x8128, 0x8129, 0x812A, 0x812B,
      0x812C, 0x812D, 0x812F] : List Word) ++ ([0x9AB8, 0xE09D, 0xE0A0, 0xE000, 0xE1FF, 0xF000, 0xF075, 0xF085,
      0xF030, 0xF0FF, 0xF01F] : List Word)).all
      (fun w : Word => decide (decode w = Except.error (DecodeError.unknownOpcode w))) = true := by
  decide

/-- The encoder writes the same words (DV4, DV8, DV12, DV20, DV23). -/
theorem test_encode_words :
    encode (.jp 0xABC) = 0x1ABC ∧ encode (.seReg 12 13) = 0x5CD0 ∧ encode (.shr 1 2) = 0x8126 ∧
    encode (.drw 10 11 12) = 0xDABC ∧ encode (.ldVxMem 8) = 0xF865 ∧
    encodeBytes (.ldMemVx 7) = [0xF7, 0x55] := by
  decide

/-- X1: the high byte comes first. -/
theorem test_fetch_is_big_endian :
    decodeBytes [0x12, 0x34, 0x56] = .ok (.jp 0x234, [0x56]) ∧
    decodeTableWord 16 0x1234 = some (.jp 0x234) ∧ decodeTableWord 16 0x0000 = none := by
  decide

/-! ### 3. One step -/

/-- Two opcode bytes at `pc`, all else as after reset. -/
def placed (pc op : Nat) : State :=
  { State.reset with
    pc := BitVec.ofNat 16 pc
    mem := writeBytes defaultFontRom [] pc [BitVec.ofNat 8 (op / 256), BitVec.ofNat 8 (op % 256)] }

/-- Some V registers set. -/
def withRegs (s : State) (l : List (VReg × Byte)) : State := l.foldl (fun t p => setV t p.1 p.2) s

/-- Some memory bytes set. -/
def withBytes (s : State) (a : Nat) (l : List Byte) : State := storeBytes s a l

/-- Some keys down. -/
def withKeys (s : State) (l : List (Fin 16)) : State := l.foldl (fun t k => keyPort t k true) s

/-- One pixel 1. -/
def withPixel (s : State) (row : Fin 32) (col : Fin 64) : State :=
  { s with fb := togglePixel s.fb row col }

/-- A view of the state one step later. -/
def after {α : Type} (s : State) (f : State → α) : Option α :=
  match step s with
  | .next t => some (f t)
  | .fault _ => none
  | .refused _ => none

/-- `PC` and one register after the step. -/
def pcAnd (r : VReg) (t : State) : Word × Byte := (t.pc, getV t r)

/-- `PC`, one register and `VF` after the step. -/
def pcAndFlag (r : VReg) (t : State) : Word × Byte × Byte := (t.pc, getV t r, getV t 15)

/-- `PC`, `FAULT.code` and `FAULT.info` after the step. -/
def faultView (t : State) : Word × Nat × BitVec 17 := (t.pc, faultCode t, faultInfo t)

/-- TV2 -/
theorem test_call_16th_succeeds :
    after { placed 0xABC 0x2300 with sp := 15 } (fun t => (t.pc, t.sp.val, t.stack[15]))
      = some (0x300, 16, 0xABC) := by decide
/-- TV3 -/
theorem test_call_17th_faults :
    after { placed 0x200 0x2300 with sp := 16 } faultView = some (0x200, 3, 0x10) := by decide
/-- TV6 -/
theorem test_ret_pops_newest_and_adds_two :
    after { placed 0x300 0x00EE with sp := 16, stack := (Vector.replicate 16 0).set 15 0xFFE }
      (fun t => (t.pc, t.sp.val)) = some (0x1000, 15) := by decide
/-- TV5 -/
theorem test_ret_empty_faults : after (placed 0x300 0x00EE) faultView = some (0x300, 4, 0) := by decide
/-- TV8 -/
theorem test_jp_accepts_0xFFF : after (placed 0x200 0x1FFF) (·.pc) = some 0xFFF := by decide
/-- TV9 -/
theorem test_fetch_at_0xFFF_faults : after (placed 0xFFF 0) faultView = some (0xFFF, 1, 0xFFF) := by decide
/-- TV10 -/
theorem test_unknown_at_last_fetchable_pc :
    after (placed 0xFFE 0) (fun t => (t.pc, t.unk)) = some (0x1000, some ⟨0, 0xFFE⟩) := by decide
/-- TV12 -/
theorem test_jpV0_has_no_12_bit_mask :
    after (withRegs (placed 0x200 0xBFFF) [(0, 0xFF)]) (·.pc) = some 0x10FE := by decide
/-- TV13 -/
theorem test_seImm_equal_skips :
    after (withRegs (placed 0x200 0x332A) [(3, 0x2A)]) (·.pc) = some 0x204 := by decide
/-- TV24 -/
theorem test_seImm_skips_past_the_end : after (placed 0xFFE 0x3000) faultView = some (0x1002, 0, 0) := by decide
/-- TV15 -/
theorem test_sneImm_equal_does_not_skip :
    after (withRegs (placed 0x200 0x432A) [(3, 0x2A)]) (·.pc) = some 0x202 := by decide
/-- TV18 -/
theorem test_seReg_unequal_does_not_skip :
    after (withRegs (placed 0x200 0x5120) [(1, 7), (2, 8)]) (·.pc) = some 0x202 := by decide
/-- TV21 -/
theorem test_sneReg_unequal_skips :
    after (withRegs (placed 0x200 0x9120) [(1, 7), (2, 8)]) (·.pc) = some 0x204 := by decide

/-- TV26 -/
theorem test_ldImm_vf : after (placed 0x200 0x6F05) (pcAnd 15) = some (0x202, 5) := by decide
/-- TV28 -/
theorem test_addImm_wraps_without_flag :
    after (withRegs (placed 0x200 0x7201) [(2, 0xFF), (15, 0xAA)]) (pcAndFlag 2)
      = some (0x202, 0, 0xAA) := by decide
/-- TV30 -/
theorem test_ldReg_copies : after (withRegs (placed 0x200 0x8010) [(1, 0x33)]) (pcAnd 0) = some (0x202, 0x33) := by decide
/-- TV31 -/
theorem test_or_keeps_vf :
    after (withRegs (placed 0x200 0x8011) [(0, 0xF0), (1, 0x0F), (15, 1)]) (pcAndFlag 0)
      = some (0x202, 0xFF, 1) := by decide
/-- TV32 -/
theorem test_and : after (withRegs (placed 0x200 0x8012) [(0, 0xF0), (1, 0x3C)]) (pcAnd 0) = some (0x202, 0x30) := by decide
/-- TV33 -/
theorem test_xor : after (withRegs (placed 0x200 0x8013) [(0, 0xF0), (1, 0x3C)]) (pcAnd 0) = some (0x202, 0xCC) := by decide
/-- TV37 -/
theorem test_add_256_carries :
    after (withRegs (placed 0x200 0x8014) [(0, 0xFF), (1, 1)]) (pcAndFlag 0) = some (0x202, 0, 1) := by decide
/-- TV39 -/
theorem test_add_to_vf_keeps_the_flag :
    after (withRegs (placed 0x200 0x8F14) [(15, 0xF0), (1, 0x20)]) (pcAnd 15) = some (0x202, 1) := by decide
/-- TV44 -/
theorem test_sub_equal_has_no_borrow :
    after (withRegs (placed 0x200 0x8015) [(0, 7), (1, 7)]) (pcAndFlag 0) = some (0x202, 0, 1) := by decide
/-- TV46 -/
theorem test_sub_from_vf_keeps_the_result :
    after (withRegs (placed 0x200 0x8F15) [(15, 5), (1, 7)]) (pcAnd 15) = some (0x202, 0xFE) := by decide
/-- TV51 -/
theorem test_subn_borrows :
    after (withRegs (placed 0x200 0x8017) [(0, 7), (1, 5), (15, 1)]) (pcAndFlag 0)
      = some (0x202, 0xFE, 0) := by decide
/-- TV54 -/
theorem test_subn_reads_old_vf :
    after (withRegs (placed 0x200 0x80F7) [(0, 3), (15, 5)]) (pcAndFlag 0) = some (0x202, 2, 1) := by decide
/-- TV56 -/
theorem test_shr_ignores_y :
    after (withRegs (placed 0x200 0x84A6) [(4, 6), (10, 0xFF), (15, 1)])
      (fun t => (getV t 4, getV t 10, getV t 15)) = some (3, 0xFF, 0) := by decide
/-- TV59 -/
theorem test_shr_vf_keeps_the_result :
    after (withRegs (placed 0x200 0x8F06) [(15, 3)]) (pcAnd 15) = some (0x202, 1) := by decide
/-- TV62 -/
theorem test_shl_0x7F :
    after (withRegs (placed 0x200 0x840E) [(4, 0x7F), (15, 1)]) (pcAndFlag 4) = some (0x202, 0xFE, 0) := by decide
/-- TV63 -/
theorem test_shl_vf_keeps_the_result :
    after (withRegs (placed 0x200 0x8F0E) [(15, 0x81)]) (pcAnd 15) = some (0x202, 2) := by decide
/-- TV65, TV66, TV67 without a value for the byte: a free value is stored masked. -/
theorem test_rnd_stores_the_masked_byte :
    after (placed 0x200 0xC30F) (pcAnd 3) = some (0x202, Config.rndByte 0 &&& 0x0F) := rfl

/-- TV68 -/
theorem test_ldI : after (placed 0x200 0xA300) (fun t => (t.pc, t.i)) = some (0x202, 0x300) := by decide
/-- TV70 -/
theorem test_addI_passes_0xFFF_without_flag :
    after { withRegs (placed 0x200 0xF21E) [(2, 1)] with i := 0xFFF } (fun t => (t.i, getV t 15))
      = some (0x1000, 0) := by decide
/-- TV72 -/
theorem test_addI_wraps_at_16_bits :
    after { withRegs (placed 0x200 0xF21E) [(2, 0xFF)] with i := 0xFFFF } (·.i) = some 0xFE := by decide
/-- TV75 -/
theorem test_ldF_uses_the_low_nibble :
    after (withRegs (placed 0x200 0xF129) [(1, 0xFF)]) (·.i) = some 0x4B := by decide
/-- TV79 -/
theorem test_ldB_at_the_highest_legal_index :
    after { withRegs (placed 0x200 0xF033) [(0, 0xFF)] with i := 0xFFD }
      (fun t => (byteAt t 0xFFD, byteAt t 0xFFE, byteAt t 0xFFF))
      = some (2, 5, 5) := by decide
/-- TV81 -/
theorem test_ldB_out_of_range_writes_nothing :
    after { withRegs (placed 0x200 0xF033) [(0, 0xFF)] with i := 0xFFE }
      (fun t => (faultView t, byteAt t 0xFFE)) = some ((0x200, 2, 0x1000), 0) := by decide
/-- TV83 -/
theorem test_ldMem_stores_x_inclusive :
    after { withRegs (placed 0x200 0xF355) [(0, 1), (1, 2), (2, 3), (3, 4), (4, 5)] with i := 0x400 }
      (fun t => (t.i, [0x400, 0x401, 0x402, 0x403, 0x404].map (byteAt t)))
      = some (0x400, [1, 2, 3, 4, 0]) := by decide
/-- TV87 -/
theorem test_ldMem_at_0xFFFF_does_not_alias :
    after { withRegs (placed 0x200 0xF055) [(0, 1)] with i := 0xFFFF } faultView
      = some (0x200, 2, 0xFFFF) := by decide
/-- TV88 -/
theorem test_ldVxMem_loads_x_inclusive :
    after { withBytes (placed 0x200 0xF365) 0x400 [1, 2, 3, 4, 5] with i := 0x400 }
      (fun t => (t.i, [0, 1, 2, 3, 4].map (getV t))) = some (0x400, [1, 2, 3, 4, 0]) := by decide
/-- TV92 -/
theorem test_ldVxMem_out_of_range_loads_nothing :
    after { withBytes (placed 0x200 0xF165) 0xFFF [0x99] with i := 0xFFF }
      (fun t => (faultView t, getV t 0)) = some ((0x200, 2, 0x1000), 0) := by decide

/-- TV93 -/
theorem test_cls :
    after (withPixel (withPixel (placed 0x200 0x00E0) 0 0) 31 63) (fun t => (t.pc, t.dirty, t.fb))
      = some (0x202, true, Vector.replicate 32 0) := by decide
/-- TV97: columns 60 to 63 and 0 to 3 of row 0 -/
theorem test_drw_wraps_columns :
    after { withBytes (withRegs (placed 0x200 0xD011) [(0, 0x3C)]) 0x300 [0xFF] with i := 0x300 }
      (fun t => (t.dirty, getV t 15, t.fb.toList.zipIdx.filter (fun p => p.1 ≠ 0)))
      = some (true, 0, [(0xF00000000000000F, 0)]) := by decide
/-- TV99 -/
theorem test_drw_collides :
    after { withPixel (withBytes (placed 0x200 0xD011) 0x300 [0xC0]) 0 1 with i := 0x300 }
      (fun t => (getV t 15, pixel t.fb 0 0, pixel t.fb 0 1)) = some (1, true, false) := by decide

/-- TV108 -/
theorem test_skp_uses_the_low_nibble :
    after (withKeys (withRegs (placed 0x200 0xE59E) [(5, 0x13)]) [3]) (·.pc) = some 0x204 := by decide
/-- TV110 -/
theorem test_sknp_pressed_does_not_skip :
    after (withKeys (withRegs (placed 0x200 0xE5A1) [(5, 3)]) [3]) (·.pc) = some 0x202 := by decide
/-- TV114 -/
theorem test_ldK_takes_the_lowest_key :
    after (withKeys (placed 0x200 0xF20A) [7, 3]) (pcAnd 2) = some (0x202, 3) := by decide
/-- TV117 -/
theorem test_ldK_waits_and_ticks :
    after { placed 0x200 0xF20A with dt := 2, st := 1 } (fun t => (t.pc, t.dt, t.st, t.tone))
      = some (0x200, 1, 0, true) := by decide
/-- TV118 -/
theorem test_ldDt_reads_before_the_tick :
    after { placed 0x200 0xF307 with dt := 5 } (fun t => (getV t 3, t.dt)) = some (5, 4) := by decide
/-- TV120 -/
theorem test_ldDtVx_ticks_in_the_same_step :
    after (withRegs (placed 0x200 0xF315) [(3, 5)]) (·.dt) = some 4 := by decide
/-- TV124 -/
theorem test_ldSt_one_gives_tone_at_once :
    after (withRegs (placed 0x200 0xF318) [(3, 1)]) (fun t => (t.st, t.tone)) = some (0, true) := by decide
/-- TV125 -/
theorem test_ldSt_zero_gives_no_tone :
    after { placed 0x200 0xF318 with st := 1 } (fun t => (t.st, t.tone)) = some (0, false) := by decide
/-- TV126 -/
theorem test_unknown_ticks_timers :
    after { placed 0x200 0xF300 with dt := 3, st := 1 } (fun t => (t.pc, t.dt, t.st, t.tone, t.unk))
      = some (0x202, 2, 0, true, some ⟨0xF300, 0x200⟩) := by decide
/-- `withFetchWord` on the reset state: the placed instruction is the one the step runs (TV25). -/
theorem test_withFetchWord_runs_the_word :
    after (State.reset.withFetchWord 16 0x6A7F) (pcAnd 10) = some (0x202, 0x7F) := by decide
/-- A byte written back to its reset contents is not listed (R33). -/
theorem test_memory_is_canonical :
    writeByte defaultFontRom (writeByte defaultFontRom [] 0x300 7) 0x300 0 = [] ∧
    writeByte defaultFontRom [] 0 0xF0 = [] ∧
    writeByte defaultFontRom [(0x300, 7)] 0x2FF 1 = [(0x2FF, 1), (0x300, 7)] := by decide
/-- TV90, TV91: the first and last glyph of the default `FONT_ROM`, and the byte after it. -/
theorem test_default_font :
    [0, 1, 2, 3, 4].map (byteAt State.reset) = [0xF0, 0x90, 0x90, 0x90, 0xF0] ∧
    [75, 76, 77, 78, 79, 80].map (byteAt State.reset) = [0xF0, 0x80, 0xF0, 0x80, 0x80, 0] := by decide
/-- The parameter `FONT_ROM` at another value is what memory holds after reset. -/
theorem test_other_font :
    byteAt (State.resetWith (Vector.replicate 80 0xFF)) 79 = 0xFF ∧
    byteAt (State.resetWith (Vector.replicate 80 0xFF)) 80 = 0 := by decide

/-- A system as the moves of the host leave it, one after another. -/
def moves : List HostEvent → System → Option System
  | [], y => some y
  | e :: es, y =>
    match hostMove e y with
    | .next z => moves es z
    | .fault _ => none
    | .refused _ => none

/-- R204: after `RESET` one `LOAD` has a move, also with a key pressed in between. -/
theorem test_load_once_after_reset :
    ((moves [.reset, .key 3 true, .load [0x12, 0x34]] (.resetWith defaultFontRom)).map
      fun z => (z.loadOpen, opcodeAt z.core)) = some (false, 0x1234) := by decide
/-- R204: a second `LOAD` has none, also after one of an empty or of an all-zero ROM. -/
theorem test_no_second_load :
    moves [.load [], .load [1]] (.resetWith defaultFontRom) = none ∧
    moves [.load [0, 0], .load [1]] (.resetWith defaultFontRom) = none := by decide
/-- R204: no `LOAD` after a step. -/
theorem test_no_load_after_a_step :
    moves [.step, .load [1]] (.resetWith defaultFontRom) = none := by decide

/-! ### 4. Witnesses: the hypotheses of each statement are met together, clause by clause -/

/-- A halted state. -/
def halt (s : State) : State := { s with fault := some ⟨.stackUnderflow, 0⟩ }

/-- `RESET` of a halted system and of another one with the same font and count answer next states. -/
theorem test_witness_ResetWorksInEveryState :
    (∃ z, hostMove .reset ⟨halt State.reset, false⟩ = .next z) ∧
    (halt State.reset).font = (placed 0x300 0).font ∧
    (halt State.reset).draws = (placed 0x300 0).draws :=
  ⟨⟨_, rfl⟩, rfl, rfl⟩
/-- Directly after `RESET`; a ROM of 3584 bytes (P8) and one of 3585. -/
theorem test_witness_LoadCopiesTheRomOrFaults :
    MemWf (System.resetWith defaultFontRom).core ∧ (System.resetWith defaultFontRom).loadOpen = true ∧
    (List.replicate 3584 (1 : Byte)).length ≤ 3584 ∧ 3584 < (List.replicate 3585 (1 : Byte)).length :=
  ⟨by decide, rfl, by rw [List.length_replicate], by rw [List.length_replicate]; omega⟩
/-- A system where `LOAD` is open moves by each of the events, and one where it is not steps. -/
theorem test_witness_LoadHasNoOtherMove :
    (∃ z, hostMove .reset (System.resetWith defaultFontRom) = .next z) ∧
    (∃ z, hostMove (.load []) (System.resetWith defaultFontRom) = .next z) ∧
    (∃ z, hostMove .step (System.resetWith defaultFontRom) = .next z) ∧
    (⟨State.reset, false⟩ : System).loadOpen = false ∧
    (∃ z, hostMove .step ⟨State.reset, false⟩ = .next z) ∧ HostEvent.step ≠ .reset :=
  ⟨⟨_, rfl⟩, ⟨_, rfl⟩, ⟨_, rfl⟩, rfl, ⟨_, rfl⟩, by decide⟩
theorem test_witness_StepLeavesKeysAndNeverClearsDirty :
    (∃ t, step { placed 0x200 0x1200 with dirty := true } = .next t) ∧
    ({ placed 0x200 0x1200 with dirty := true } : State).dirty = true := ⟨⟨_, rfl⟩, rfl⟩
theorem test_witness_OnlyResetLeavesTheHaltedState :
    (halt State.reset).fault ≠ none ∧ (∃ z, hostMove .dirtyAck ⟨halt State.reset, false⟩ = .next z) ∧
    HostEvent.dirtyAck ≠ .reset ∧ (⟨halt State.reset, false⟩ : System).loadOpen = false :=
  ⟨by decide, ⟨_, rfl⟩, by decide, rfl⟩
theorem test_witness_FontParameterNeverChanges :
    (∃ t, step State.reset = .next t) ∧
    ∃ z, hostMove (.load [0x12, 0x34]) (System.resetWith defaultFontRom) = .next z :=
  ⟨⟨_, rfl⟩, ⟨_, rfl⟩⟩
theorem test_witness_DecodeInvertsEncode :
    (Instr.jp 0).WellFormed ∧ (Instr.jpV0 0xFFF).WellFormed ∧ (Instr.drw 0 15 0).WellFormed ∧
    (Instr.drw 15 0 15).WellFormed := by decide
theorem test_witness_EncodeInvertsDecode : decode 0xFF65 = .ok (.ldVxMem 15) := rfl
/-- A word that matches its row (8xy6, `SHR`), and one that decodes. -/
theorem test_witness_DecodeFollowsTheOpcodeTable :
    (∃ row ∈ opcodeRows, (0x84A6 : Word) &&& row.mask = row.pattern) ∧
    decode 0x84A6 = .ok (.shr 4 10) :=
  ⟨⟨⟨0x8006, 0xF00F, fun op => .shr (opX op) (opY op)⟩, by simp [opcodeRows], by decide⟩, rfl⟩
/-- The last fetchable `PC` holds a word that is no instruction. -/
theorem test_unknown_word_at_0xFFE (i : Instr) : ¬ Decodes (opcodeAt (placed 0xFFE 0)) i := by
  intro h
  have e : decode (BitVec.ofNat 16 (opcodeAt (placed 0xFFE 0))) = .error (.unknownOpcode 0) := rfl
  rw [Decodes, e] at h
  cases h
/-- The cases: halted; `PC` = 0xFFF; `PC` = 0xFFE with an unknown word and with `RET`, which faults. -/
theorem test_witness_StepFollowsTheCycle :
    (halt State.reset).fault ≠ none ∧
    ((placed 0xFFF 0).fault = none ∧ 0xFFF < (placed 0xFFF 0).pc.toNat + 1) ∧
    ((placed 0xFFE 0).fault = none ∧ (placed 0xFFE 0).pc.toNat + 1 ≤ 0xFFF ∧
      ∀ i, ¬ Decodes (opcodeAt (placed 0xFFE 0)) i) ∧
    ((placed 0xFFE 0xEE).fault = none ∧ (placed 0xFFE 0xEE).pc.toNat + 1 ≤ 0xFFF ∧
      Decodes (opcodeAt (placed 0xFFE 0xEE)) .ret ∧
      ∃ t, exec .ret { placed 0xFFE 0xEE with tone := false, unk := none } = .next t ∧
        t.fault ≠ none) :=
  ⟨by decide, by decide, ⟨rfl, by decide, test_unknown_word_at_0xFFE⟩,
   ⟨rfl, by decide, rfl, _, rfl, by decide⟩⟩
theorem test_witness_StepRunsThePlacedInstruction :
    MemWf (placed 0xFFE 0) ∧ (Instr.jp 0xFFF).WellFormed ∧ (placed 0xFFE 0).fault = none ∧
    (placed 0xFFE 0).pc.toNat + 1 ≤ 0xFFF := by decide
theorem test_witness_UnknownOpcodeIsReportedAndSkipped :
    ((placed 0xFFE 0).fault = none ∧ (placed 0xFFE 0).pc.toNat + 1 ≤ 0xFFF ∧
      ∀ i, ¬ Decodes (opcodeAt (placed 0xFFE 0)) i) ∧
    ((placed 0xFFF 0).fault = none ∧ (∃ t, step (placed 0xFFF 0) = .next t) ∧
      0xFFF < (placed 0xFFF 0).pc.toNat + 1) ∧
    ((placed 0xFFE 0x1FFE).fault = none ∧ (∃ t, step (placed 0xFFE 0x1FFE) = .next t) ∧
      Decodes (opcodeAt (placed 0xFFE 0x1FFE)) (.jp 0xFFE)) :=
  ⟨⟨rfl, by decide, test_unknown_word_at_0xFFE⟩, ⟨rfl, ⟨_, rfl⟩, by decide⟩, ⟨rfl, ⟨_, rfl⟩, rfl⟩⟩
/-- A step of a halted core, one that faults, one that loads no timer, one of each timer load. -/
theorem test_witness_TimersTickOncePerStep :
    (∃ t, step (halt State.reset) = .next t ∧ (halt State.reset).fault ≠ none) ∧
    (∃ t, step (placed 0xFFF 0) = .next t ∧ t.fault ≠ none) ∧
    (∃ t, step (placed 0xFFE 0) = .next t ∧ (placed 0xFFE 0).fault = none ∧ t.fault = none ∧
      (∀ x, ¬ Decodes (opcodeAt (placed 0xFFE 0)) (.ldDtVx x)) ∧
      ∀ x, ¬ Decodes (opcodeAt (placed 0xFFE 0)) (.ldStVx x)) ∧
    (∃ t, step (placed 0x200 0xF315) = .next t ∧ (placed 0x200 0xF315).fault = none ∧
      t.fault = none ∧ Decodes (opcodeAt (placed 0x200 0xF315)) (.ldDtVx 3)) ∧
    (∃ t, step (placed 0x200 0xF318) = .next t ∧ (placed 0x200 0xF318).fault = none ∧
      t.fault = none ∧ Decodes (opcodeAt (placed 0x200 0xF318)) (.ldStVx 3)) :=
  ⟨⟨_, rfl, by decide⟩, ⟨_, rfl, by decide⟩,
   ⟨_, rfl, rfl, rfl, fun _ => test_unknown_word_at_0xFFE _, fun _ => test_unknown_word_at_0xFFE _⟩,
   ⟨_, rfl, rfl, rfl, rfl⟩, ⟨_, rfl, rfl, rfl, rfl⟩⟩
/-- `LD ST, V0` with `V0 = 2`, then the unknown word 0x0000: a run of two steps. -/
def toneRun : Nat → State
  | 0 => withRegs (placed 0x200 0xF018) [(0, 2)]
  | 1 => { withRegs (placed 0x202 0) [(0, 2)] with mem := (placed 0x200 0xF018).mem, st := 1 }
  | _ => { withRegs (placed 0x204 0) [(0, 2)] with
      mem := (placed 0x200 0xF018).mem, tone := true, unk := some ⟨0, 0x202⟩ }
theorem test_witness_SoundTimerLoadGivesOneTonePulse :
    (∀ k, k < 2 → step (toneRun k) = .next (toneRun (k + 1)) ∧ (toneRun k).fault = none ∧
      (toneRun (k + 1)).fault = none) ∧
    Decodes (opcodeAt (toneRun 0)) (.ldStVx 0) ∧
    ∀ k, 0 < k → k < 2 → ∀ y, ¬ Decodes (opcodeAt (toneRun k)) (.ldStVx y) := by
  refine ⟨fun k hk => ?_, rfl, fun k h0 hk y h => ?_⟩
  · interval_cases k <;> exact ⟨rfl, rfl, rfl⟩
  · obtain rfl : k = 1 := by omega
    have e : decode (BitVec.ofNat 16 (opcodeAt (toneRun 1))) = .error (.unknownOpcode 0) := rfl
    rw [Decodes, e] at h
    cases h
/-- A self-jump, and a key wait with no key down, at the last fetchable `PC`. -/
theorem test_witness_SelfJumpAndKeyWaitStandStill :
    ((placed 0xFFE 0x1FFE).fault = none ∧ (placed 0xFFE 0x1FFE).pc.toNat + 1 ≤ 0xFFF ∧
      Decodes (opcodeAt (placed 0xFFE 0x1FFE)) (.jp (placed 0xFFE 0x1FFE).pc.toNat)) ∧
    ((placed 0xFFE 0xFF0A).fault = none ∧ (placed 0xFFE 0xFF0A).pc.toNat + 1 ≤ 0xFFF ∧
      Decodes (opcodeAt (placed 0xFFE 0xFF0A)) (.ldVxK 15) ∧
      ∀ k : Fin 16, (placed 0xFFE 0xFF0A).keys[k.val] = false) :=
  ⟨⟨rfl, by decide, rfl⟩, ⟨rfl, by decide, rfl, by decide⟩⟩
theorem test_witness_FatalFaultIsPrecise :
    (∃ t, step (halt State.reset) = .next t ∧ (halt State.reset).fault ≠ none) ∧
    ∃ t, step (placed 0x200 0x00EE) = .next t ∧ (placed 0x200 0x00EE).fault = none ∧
      t.fault = some ⟨.stackUnderflow, 0⟩ :=
  ⟨⟨_, rfl, by decide⟩, ⟨_, rfl, rfl, rfl⟩⟩
theorem test_witness_EachInstructionRaisesExactlyItsOwnFault : (placed 0x200 0x00EE).fault = none := rfl
theorem test_witness_StackFaultsLatchAndChangeNothing :
    ({ State.reset with sp := 16 } : State).sp.val = 16 ∧ State.reset.sp.val = 0 := by decide
/-- The last byte of a BCD block is the first address out of range; a running state. -/
theorem test_witness_BlockIsCheckedBeforeAnyByteMoves :
    2 < blockLengthOf (.ldBVx 0) ∧ 0xFFF < ({ State.reset with i := 0xFFE } : State).i.toNat + 2 ∧
    State.reset.fault = none := by decide
/-- A state with a timer running and bytes stored meets the invariant, and steps. -/
theorem test_witness_StepKeepsTheMachineInvariant :
    MachineInv { placed 0x202 0x1200 with dt := 1 } ∧
    ∃ t, step { placed 0x202 0x1200 with dt := 1 } = .next t := by
  refine ⟨⟨by decide, by decide, by decide, fun f hf => ?_, fun h => ?_, fun u hu => ?_⟩, ⟨_, rfl⟩⟩
  · cases hf
  · cases h
  · cases hu
/-- A halted system meets the invariant, and the host moves in it; so does one where `LOAD` is open. -/
theorem test_witness_HostMovesKeepTheMachineInvariant :
    SystemInv ⟨halt (placed 0x202 0x00EE), false⟩ ∧
    (∃ z, hostMove (.key 3 true) ⟨halt (placed 0x202 0x00EE), false⟩ = .next z) ∧
    SystemInv ⟨withKeys State.reset [3], true⟩ ∧
    ∃ z, hostMove (.load [1]) ⟨withKeys State.reset [3], true⟩ = .next z := by
  refine ⟨⟨⟨by decide, by decide, by decide, fun f hf => ?_, fun h => ?_, fun u hu => ?_⟩, fun h => ?_⟩,
    ⟨_, rfl⟩, ⟨⟨by decide, by decide, by decide, fun f hf => ?_, fun h => ?_, fun u hu => ?_⟩,
    fun _ => rfl⟩, ⟨_, rfl⟩⟩
  · cases hf; exact ⟨⟨rfl, rfl⟩, rfl, rfl⟩
  · cases h
  · cases hu
  · cases h
  · cases hf
  · cases h
  · cases hu
theorem test_witness_CanonicalMemoryIsDeterminedByItsReads :
    Memory.wf defaultFontRom (writeByte defaultFontRom [] 0xFFF 1) ∧
    Memory.wf defaultFontRom [(0xFFF, 1)] ∧
    ∀ a, readByte defaultFontRom (writeByte defaultFontRom [] 0xFFF 1) a
      = readByte defaultFontRom [(0xFFF, 1)] a :=
  ⟨by decide, by decide, fun _ => rfl⟩
/-- An instruction that goes on, one that faults, and an unknown word. -/
theorem test_witness_PcFollowsTheTable :
    (∃ t, exec (.jp 0) State.reset = .next t ∧ t.fault = none) ∧
    (∃ t, exec .ret State.reset = .next t ∧ t.fault ≠ none) ∧ State.reset.fault = none ∧
    (∃ t, step (placed 0xFFE 0) = .next t) ∧ (placed 0xFFE 0).pc.toNat + 1 ≤ 0xFFF ∧
    ∀ i, ¬ Decodes (opcodeAt (placed 0xFFE 0)) i :=
  ⟨⟨_, rfl, rfl⟩, ⟨_, rfl, by decide⟩, rfl, ⟨_, rfl⟩, by decide, test_unknown_word_at_0xFFE⟩
/-- For each clause, an instruction that does write that state, next to state it leaves. -/
theorem test_witness_InstructionsWriteOnlyTheirOwnState :
    (∃ t, exec (.ldImm 3 7) State.reset = .next t ∧ mayWriteV (.ldImm 3 7) 15 = false ∧
      storeLengthOf (.ldImm 3 7) = 0) ∧
    (∃ t, exec (.ldI 1) State.reset = .next t ∧ t.i ≠ State.reset.i) ∧
    (∃ t, exec (.call 1) State.reset = .next t ∧ t.sp ≠ State.reset.sp ∧
      (15 : Fin 16).val ≠ State.reset.sp.val) ∧
    (∃ t, exec (.ldDtVx 1) (withRegs State.reset [(1, 9)]) = .next t ∧ t.dt ≠ State.reset.dt) ∧
    (∃ t, exec (.ldStVx 1) (withRegs State.reset [(1, 9)]) = .next t ∧ t.st ≠ State.reset.st) ∧
    (∃ t, exec .cls State.reset = .next t ∧ t.dirty ≠ State.reset.dirty) ∧
    (∃ t, exec (.rnd 1 2) State.reset = .next t ∧ t.draws ≠ State.reset.draws) ∧
    ∃ s t, MemWf s ∧ exec (.ldMemVx 1) s = .next t ∧ byteAt t 0xFFF ≠ byteAt s 0xFFF ∧
      ∀ k, k < storeLengthOf (.ldMemVx 1) → 0xFFD ≠ effectiveAddress s k :=
  ⟨⟨_, rfl, by decide, rfl⟩, ⟨_, rfl, by decide⟩, ⟨_, rfl, by decide, by decide⟩,
   ⟨_, rfl, by decide⟩, ⟨_, rfl, by decide⟩, ⟨_, rfl, by decide⟩, ⟨_, rfl, by decide⟩,
   ⟨{ withRegs State.reset [(1, 9)] with i := 0xFFE }, _, by decide, rfl, by decide, by decide⟩⟩
/-- An instruction that is none of the readers or writers named in the clauses. -/
theorem test_witness_InstructionsIgnoreOtherInputsTimersAndDisplay :
    (∀ x, Instr.ret ≠ .skp x ∧ Instr.ret ≠ .sknp x ∧ Instr.ret ≠ .ldVxK x) ∧
    (∀ x nn, Instr.ret ≠ .rnd x nn) ∧ Instr.ret ≠ .cls ∧ (∀ x y n, Instr.ret ≠ .drw x y n) ∧
    (∀ x, Instr.ret ≠ .ldVxDt x ∧ Instr.ret ≠ .ldDtVx x) ∧ ∀ x, Instr.ret ≠ .ldStVx x := by
  simp
/-- `LD V3, nn` reads no register, and is none of the readers named in the other clauses. -/
theorem test_witness_InstructionsIgnoreOtherRegistersMemoryAndStack :
    (∃ t, exec (.ldImm 3 7) State.reset = .next t) ∧ readsV (.ldImm 3 7) 3 = false ∧
    MemWf State.reset ∧ Memory.wf (Vector.replicate 80 0xFF) [(0xFFF, 1)] ∧
    (∀ x y n, Instr.ldImm 3 7 ≠ .drw x y n) ∧
    (∀ x, Instr.ldImm 3 7 ≠ .addIVx x ∧ Instr.ldImm 3 7 ≠ .ldBVx x ∧ Instr.ldImm 3 7 ≠ .ldMemVx x ∧
      Instr.ldImm 3 7 ≠ .ldVxMem x) ∧
    Instr.ldImm 3 7 ≠ .ret ∧ ∀ nnn, Instr.ldImm 3 7 ≠ .call nnn :=
  ⟨⟨_, rfl⟩, rfl, by decide, by decide, by simp, by simp, by simp, by simp⟩
theorem test_witness_JumpsSetPcToTheirTarget : 0 < 4096 ∧ 0xFFF < 4096 := by decide
theorem test_witness_CallPushesItsOwnAddress :
    0xFFF < 4096 ∧ ({ State.reset with sp := 15 } : State).sp.val < 16 ∧
    ({ State.reset with sp := 16 } : State).sp.val = 16 := by decide
theorem test_witness_ReturnResumesAfterTheCall :
    0 < ({ State.reset with sp := 1 } : State).sp.val ∧ State.reset.sp.val = 0 := by decide
theorem test_witness_CallThenReturnComesBack :
    ∃ t, exec (.call 0x300) { State.reset with sp := 15 } = .next t ∧
      ({ State.reset with sp := 15 } : State).sp.val < 16 ∧
      ({ t with pc := 0x400 } : State).sp = t.sp ∧ ({ t with pc := 0x400 } : State).stack = t.stack :=
  ⟨_, rfl, by decide, rfl, rfl⟩
theorem test_witness_RandomByteIsMasked : (0x00 : Byte) = 0x00 ∧ (0xFF : Byte) = 0xFF := by decide
theorem test_witness_IndexWritesSetNoFlag : 0xFFF < 4096 := by decide
/-- The highest index that stores and the lowest that faults. -/
theorem test_witness_BcdStoresThreeDigits :
    MemWf (placed 0x200 0) ∧ ({ placed 0x200 0 with i := 0xFFD } : State).i.toNat ≤ 0xFFD ∧
    0xFFD < ({ placed 0x200 0 with i := 0xFFE } : State).i.toNat := by decide
theorem test_witness_RegisterDumpStoresTheBlock :
    MemWf (placed 0x200 0) ∧
    ({ placed 0x200 0 with i := 0xFF0 } : State).i.toNat + (15 : VReg).val ≤ 0xFFF ∧
    0xFFF < ({ placed 0x200 0 with i := 0xFF1 } : State).i.toNat + (15 : VReg).val := by decide
theorem test_witness_RegisterLoadReadsTheBlock :
    ({ placed 0x200 0 with i := 0xFFF } : State).i.toNat + (0 : VReg).val ≤ 0xFFF ∧
    0xFFF < ({ placed 0x200 0 with i := 0x1000 } : State).i.toNat + (0 : VReg).val := by decide
theorem test_witness_DumpThenLoadGivesTheRegistersBack :
    (∃ t, exec (.ldBVx 0) State.reset = .next t) ∧ MemWf State.reset ∧
    ({ State.reset with i := 0xFF0 } : State).i.toNat + (15 : VReg).val ≤ 0xFFF ∧
    ∃ t, exec (.ldMemVx 15) { State.reset with i := 0xFF0 } = .next t ∧
      SameMemory t { t with pc := 0x400, dt := 7 } ∧
      ({ t with pc := 0x400, dt := 7 } : State).i = t.i :=
  ⟨⟨_, rfl⟩, by decide, by decide, ⟨_, rfl, fun _ => rfl, rfl⟩⟩
/-- The store of program P5, `LD [I], V1` at 0x206 over the next instruction; and `LD B, V0` at 0xFFC
over the last byte of memory only. -/
theorem test_witness_StoreIsSeenByTheNextFetch :
    (∃ s t : State, MemWf s ∧ s.fault = none ∧ Decodes (opcodeAt s) (.ldMemVx 1) ∧
      0 < storeLengthOf (.ldMemVx 1) ∧ step s = .next t ∧ t.fault = none ∧
      s.i.toNat = s.pc.toNat + 2 ∧ s.pc.toNat + 3 ≤ 0xFFF) ∧
    ∃ s t : State, MemWf s ∧ s.fault = none ∧ Decodes (opcodeAt s) (.ldBVx 0) ∧
      0 < storeLengthOf (.ldBVx 0) ∧ step s = .next t ∧ t.fault = none ∧
      s.i.toNat + 2 = s.pc.toNat + 2 ∧ s.pc.toNat + 3 ≤ 0xFFF :=
  ⟨⟨{ placed 0x206 0xF155 with i := 0x208 }, _, by decide, rfl, rfl, by decide, rfl, rfl, by decide,
    by decide⟩,
   ⟨{ placed 0xFFC 0xF033 with i := 0xFFC }, _, by decide, rfl, rfl, by decide, rfl, rfl, by decide,
    by decide⟩⟩
/-- R64, R143: `LD B, V0` at 0x206 with `V0 = 208` and `I = 0x207` stores 2, 0, 8, and the digits 0 and 8
stand where the next instruction is fetched. -/
theorem test_bcd_store_is_fetched_next :
    after { withRegs (placed 0x206 0xF033) [(0, 208)] with i := 0x207 } fetchOpcode
      = some (some 0x0008) := by decide
/-- Height 0 at an index out of range, height 15 in range, height 2 out of range. -/
theorem test_witness_DrawTogglesExactlyTheCoveredCells :
    0 < 16 ∧ 15 < 16 ∧ ({ State.reset with i := 0xFF1 } : State).i.toNat + 15 ≤ 0x1000 ∧
    0x1000 < ({ State.reset with i := 0xFFF } : State).i.toNat + 2 := by decide
/-- The two draws of TV97, on a blank screen, at column 60. -/
theorem test_witness_DrawingTwiceRestoresTheScreen :
    ∃ s t : State, (∀ k, fbCell s.fb k = false) ∧ s.i.toNat + 1 ≤ 0x1000 ∧
      exec (.drw 0 1 1) s = .next t ∧ getV t 0 = getV s 0 ∧ getV t 1 = getV s 1 ∧
      getV s 0 = 60 ∧ (byteAt s (s.i.toNat + 0)).getLsbD (7 - 4) = true ∧
      (0 : Fin 2048).val = ((getV s 1).toNat + 0) % 32 * 64 + (4 - 4) :=
  ⟨{ withBytes (withRegs State.reset [(0, 60)]) 0x300 [0xFF] with i := 0x300 }, _, by
    intro k
    have := pixel_replicate ⟨k.val / 64, by omega⟩ ⟨k.val % 64, by omega⟩
    exact this, by decide, rfl, rfl, rfl, rfl, rfl, rfl⟩
theorem test_witness_KeySkipsTestTheLowNibble :
    (0 : Fin 16).val = (getV State.reset 5).toNat % 16 ∧
    (15 : Fin 16).val = (getV (withRegs State.reset [(5, 0xFF)]) 5).toNat % 16 := by decide
/-- No key down; keys 0 and F down, of which 0 is the least; key F alone. -/
theorem test_witness_BlockOnKeyTakesTheLeastPressedKey :
    (∀ k : Fin 16, State.reset.keys[k.val] = false) ∧
    ((withKeys State.reset [0, 15]).keys[(0 : Fin 16).val] = true ∧
      ∀ j : Fin 16, j < 0 → (withKeys State.reset [0, 15]).keys[j.val] = false) ∧
    ((withKeys State.reset [15]).keys[(15 : Fin 16).val] = true ∧
      ∀ j : Fin 16, j < 15 → (withKeys State.reset [15]).keys[j.val] = false) := by decide
theorem test_witness_TimerTransfersAndTheTickOfTheirStep :
    (placed 0xFFE 0xF307).fault = none ∧ (placed 0xFFE 0xF307).pc.toNat + 1 ≤ 0xFFF ∧
    Decodes (opcodeAt (placed 0xFFE 0xF307)) (.ldVxDt 3) ∧
    Decodes (opcodeAt (placed 0xFFE 0xF315)) (.ldDtVx 3) ∧
    Decodes (opcodeAt (placed 0xFFE 0xF318)) (.ldStVx 3) :=
  ⟨rfl, by decide, rfl, rfl, rfl⟩

end Sys2Proof.Tests
end

section
/-!
What the state after `RESET` reads as through the model's accessors (R40): registers, framebuffer
cells and memory bytes.
-/

namespace Sys2Proof.Machine

/-- The font begins at address 0, so the reset contents are the bytes of `FONT_ROM`, then 0x00
(R33, R41). -/
theorem resetByte_eq_getD (font : FontRom) (a : Nat) :
    resetByte font a = font.toList.getD a 0 := rfl

theorem resetByte_eq_getElem_font (font : FontRom) (k : Fin 80) :
    resetByte font k.val = font[k.val] := by
  have hk : k.val < font.toList.length := font.length_toList.symm ▸ k.isLt
  rw [resetByte_eq_getD, List.getD_eq_getElem _ _ hk, Vector.getElem_toList]

theorem resetByte_eq_zero_of_font_le (font : FontRom) {a : Nat} (ha : 80 ≤ a) :
    resetByte font a = 0 := by
  have hlen : font.toList.length ≤ a := font.length_toList.symm ▸ ha
  rw [resetByte_eq_getD, List.getD_eq_default _ _ hlen]

@[simp] theorem getV_resetWith (font : FontRom) (r : VReg) :
    getV (State.resetWith font) r = 0 := by
  rw [getV, resetWith_v, Vector.getElem_replicate]

/-- No cell of the cleared framebuffer is set. -/
@[simp] theorem fbCell_replicate (k : Fin 2048) : fbCell (Vector.replicate 32 0) k = false :=
  pixel_replicate _ _

end Sys2Proof.Machine
end

section

open Sys2Proof.Machine

/-- Settles O1: each register, stack entry, key, framebuffer cell and byte of memory after reset is
read through its accessor; the remaining values are fields of `State.resetWith`. -/
theorem resetGivesEveryListedValue : Obligations.ResetGivesEveryListedValue := by
  refine ⟨rfl, ?_⟩
  rintro font s rfl
  have hstack (k : Fin 16) : (State.resetWith font).stack[k.val] = 0 :=
    Vector.getElem_replicate k.isLt
  have hkeys (k : Fin 16) : (State.resetWith font).keys[k.val] = false :=
    Vector.getElem_replicate k.isLt
  have hfont (k : Fin 80) : byteAt (State.resetWith font) k.val = font[k.val] :=
    resetByte_eq_getElem_font font k
  have hzero (a : Nat) (ha : 80 ≤ a) (_ : a < 4096) : byteAt (State.resetWith font) a = 0 :=
    resetByte_eq_zero_of_font_le font ha
  exact ⟨getV_resetWith font, rfl, rfl, hstack, rfl, rfl, rfl, fbCell_replicate, rfl, hkeys,
    rfl, rfl, rfl, hfont, hzero⟩

end

section
/-!
The instructions that move a block at `I` (R57, R59): their effect stands behind the range check of
the whole block.
-/

namespace Sys2Proof.Machine

open Sys2Proof.Claims

/-- The block instructions are `withBlock` of their block: whatever they do, they do it behind the
range check (R59). -/
theorem exec_eq_withBlock {i : Instr} (h : 0 < blockLengthOf i) (s : State) :
    ∃ f, exec i s = .next (withBlock s (blockLengthOf i) f) := by
  cases i with
  | drw | ldBVx | ldMemVx | ldVxMem => exact ⟨_, rfl⟩
  | _ => exact absurd h (Nat.lt_irrefl 0)

/-- A block instruction whose last address is above 0xFFF latches the fault and does nothing else. -/
theorem exec_of_block_out_of_range {i : Instr} {s : State} (hlen : 0 < blockLengthOf i)
    (hout : 0x1000 < s.i.toNat + blockLengthOf i) :
    exec i s = .next (Faulted s .dataOutOfRange (max s.i.toNat 0x1000)) := by
  obtain ⟨f, hf⟩ := exec_eq_withBlock hlen s
  rw [hf, withBlock_of_out_of_range f ⟨hlen, hout⟩]
  rfl

/-- A sprite of no rows toggles nothing and meets no pixel (R151). -/
@[simp] theorem drawSprite_zero (s : State) (vx vy : Byte) (p : Framebuffer × Bool) :
    drawSprite s vx vy p 0 = p := rfl

/-- A `DRW` of height 0 passes the range check for every `I`, and its drawing is empty (R57, R59). -/
theorem exec_drw_zero (x y : VReg) (s : State) :
    exec (.drw x y 0) s = .next (finishDraw s (s.fb, false)) := by
  rw [exec, execDrw, withBlock_of_in_range _ (.inl rfl), drawSprite_zero]

end Sys2Proof.Machine
end

section

open Sys2Proof.Machine Sys2Proof.Claims

/-- Settles O23: the range check comes before the effect of every block instruction, and the lowest
address out of range is `I` itself, or 0x1000 where the block begins below it. -/
theorem blockIsCheckedBeforeAnyByteMoves : Obligations.BlockIsCheckedBeforeAnyByteMoves := by
  refine ⟨fun i s k hk hout => ?_, fun x y s hs => ?_⟩
  · have hfault := exec_of_block_out_of_range (i := i) (s := s) (by omega) (by omega)
    have hlowest : ∃ j, j < blockLengthOf i ∧ max s.i.toNat 0x1000 = s.i.toNat + j :=
      ⟨0x1000 - s.i.toNat, by omega, by omega⟩
    exact ⟨_, hfault, rfl, by omega, hlowest, fun j _ hj => by omega⟩
  · exact ⟨_, exec_drw_zero x y s, by simpa using hs, by simp⟩

end

section
/-!
The opcode table of R86: what it is for a word to match a row, and that the decoder and the table
agree.
-/

namespace Sys2Proof

/-- The mask that keeps the class nibble `op[15:12]` and the low `w` bits of a word. -/
def selectorMask (w : Nat) : Word := BitVec.ofNat 16 (0xF000 + (2 ^ w - 1))

/-- The masked word holds the class nibble above the selector. -/
theorem and_selectorMask_toNat (op : Word) {w : Nat} (hw : w ≤ 12) :
    (op &&& selectorMask w).toNat = slice op 12 4 * 2 ^ 12 + slice op 0 w := by
  have hpow : 2 ^ w ≤ 2 ^ 12 := Nat.pow_le_pow_right (by omega) hw
  have hpos : 0 < 2 ^ w := by positivity
  have hmask : (selectorMask w).toNat = 0xF000 + (2 ^ w - 1) := by
    rw [selectorMask, BitVec.toNat_ofNat, Nat.mod_eq_of_lt (by omega)]
  have hhigh : (selectorMask w).toNat / 2 ^ 12 = 2 ^ 4 - 1 := by omega
  have hlow : (selectorMask w).toNat % 2 ^ 12 = 2 ^ w - 1 := by omega
  rw [BitVec.toNat_and, ← Nat.div_add_mod' (op.toNat &&& (selectorMask w).toNat) (2 ^ 12),
    Nat.and_div_two_pow, Nat.and_mod_two_pow, hhigh, hlow, Nat.and_two_pow_sub_one_eq_mod,
    Nat.and_two_pow_sub_one_eq_mod, Nat.mod_mod_of_dvd _ (Nat.pow_dvd_pow 2 hw)]
  simp [slice]

/-- A masked word is `p` exactly when class nibble and selector are those of `p`. -/
theorem and_selectorMask_eq_iff (op p : Word) {w : Nat} (hw : w ≤ 12) :
    op &&& selectorMask w = p ↔ slice op 12 4 = slice p 12 4 ∧ slice op 0 w = slice p 0 12 := by
  have hpow : 2 ^ w ≤ 2 ^ 12 := Nat.pow_le_pow_right (by omega) hw
  have hsel : slice op 0 w < 2 ^ w := slice_lt op 0 w
  have hsel' : slice p 0 12 < 2 ^ 12 := slice_lt p 0 12
  have hp : p.toNat = slice p 12 4 * 2 ^ 12 + slice p 0 12 := by
    have := p.isLt
    simp only [slice]; omega
  rw [← BitVec.toNat_inj, and_selectorMask_toNat op hw, hp]
  omega

/-- A slice of a written-out word, as a number to compute. -/
theorem slice_ofNat (v lo width : Nat) :
    slice (BitVec.ofNat 16 v) lo width = v % 2 ^ 16 / 2 ^ lo % 2 ^ width := by
  rw [slice, BitVec.toNat_ofNat]

end Sys2Proof

namespace Sys2Proof.Claims

/-! ### The fields the table takes from a word are the decoder's -/

@[simp] theorem opX_eq_fieldX (op : Word) : opX op = fieldX op := by
  apply Fin.ext; simp [opX, Fin.ofNat, Nat.shiftRight_eq_div_pow]

@[simp] theorem opY_eq_fieldY (op : Word) : opY op = fieldY op := by
  apply Fin.ext; simp [opY, Fin.ofNat, Nat.shiftRight_eq_div_pow]

@[simp] theorem opN_eq_fieldN (op : Word) : opN op = fieldN op := by
  simp [opN]

@[simp] theorem opNN_eq_fieldNN (op : Word) : opNN op = fieldNN op := by
  apply BitVec.eq_of_toNat_eq; simp [opNN]

@[simp] theorem opNNN_eq_fieldNNN (op : Word) : opNNN op = fieldNNN op := by
  simp [opNNN]

/-! ### Matching a row -/

/-- How many low bits the mask of a row keeps beside the class nibble (R85). -/
def Row.width (row : Row) : Nat :=
  if row.mask = 0xFFFF then 12 else if row.mask = 0xF0FF then 8 else if row.mask = 0xF00F then 4
  else 0

/-- Every mask of the table is one of the four forms. -/
theorem mask_eq_selectorMask :
    ∀ row ∈ opcodeRows, row.width ≤ 12 ∧ row.mask = selectorMask row.width := by
  decide

/-- A word matches a row exactly when it has the class nibble and the selector of the row. -/
theorem matches_row_iff (op : Word) {row : Row} (hrow : row ∈ opcodeRows) :
    op &&& row.mask = row.pattern ↔
      slice op 12 4 = slice row.pattern 12 4 ∧ slice op 0 row.width = slice row.pattern 0 12 := by
  obtain ⟨hwidth, hmask⟩ := mask_eq_selectorMask row hrow
  rw [← and_selectorMask_eq_iff op row.pattern hwidth, ← hmask]

/-- What tells the rows apart: class nibble, width of the selector, selector. -/
def Row.key (row : Row) : Nat × Nat × Nat :=
  (slice row.pattern 12 4, row.width, slice row.pattern 0 12)

/-- A word whose class nibble and selector are the key of a row matches a row. -/
theorem exists_matching_row {op : Word} {c w n : Nat} (hclass : slice op 12 4 = c)
    (hsel : slice op 0 w = n) (hkey : (c, w, n) ∈ opcodeRows.map Row.key) :
    ∃ row ∈ opcodeRows, op &&& row.mask = row.pattern := by
  obtain ⟨row, hrow, hk⟩ := List.mem_map.1 hkey
  cases hk
  exact ⟨row, hrow, (matches_row_iff op hrow).2 ⟨hclass, hsel⟩⟩

/-- Along the branches of the decoder: each that answers an instruction has tested the class nibble
and the selector of a row. -/
theorem exists_matching_row_of_decode {op : Word} {i : Instr} (h : decode op = .ok i) :
    ∃ row ∈ opcodeRows, op &&& row.mask = row.pattern := by
  unfold decode decodeClass0 decodeClass5 decodeClass8 decodeClass9 decodeClassE decodeClassF at h
  split at h
  case h_17 => cases h
  case h_1 hclass | h_6 hclass | h_9 hclass | h_10 hclass | h_15 hclass | h_16 hclass =>
    split at h
    on_goal -1 => cases h
    all_goals exact exists_matching_row hclass ‹_› (by decide)
  all_goals
    have hsel : slice op 0 0 = 0 := Nat.mod_one _
    exact exists_matching_row ‹_› hsel (by decide)

/-- Row by row: the class nibble and the selector of a row lead the decoder to its instruction. -/
theorem decode_of_class_selector (op : Word) : ∀ row ∈ opcodeRows,
    slice op 12 4 = slice row.pattern 12 4 ∧ slice op 0 row.width = slice row.pattern 0 12 →
      decode op = .ok (row.instr op) := by
  simp only [opcodeRows, List.cons_append, List.nil_append, List.forall_mem_cons,
    List.not_mem_nil, false_imp_iff, implies_true, and_true, Row.width, BitVec.ofNat_eq_ofNat,
    BitVec.reduceEq, if_true, if_false, slice_ofNat, Nat.reducePow, Nat.reduceMod, Nat.reduceDiv]
  and_intros
  all_goals
    rintro ⟨hclass, hsel⟩
    simp only [decode, hclass, decodeClass0, decodeClass5, decodeClass8, decodeClass9,
      decodeClassE, decodeClassF, hsel, opX_eq_fieldX, opY_eq_fieldY, opN_eq_fieldN,
      opNN_eq_fieldNN, opNNN_eq_fieldNNN]

/-- Two rows whose patterns differ where both masks look cannot match the same word. -/
theorem not_matches_both {a b : Row} (h : a.pattern &&& b.mask ≠ b.pattern &&& a.mask) (op : Word) :
    ¬ (op &&& a.mask = a.pattern ∧ op &&& b.mask = b.pattern) := by
  rintro ⟨ha, hb⟩
  refine h ?_
  rw [← ha, ← hb, BitVec.and_assoc, BitVec.and_assoc, BitVec.and_comm a.mask]

/-- No two rows agree where both their masks look. -/
theorem opcodeRows_pairwise_patterns_differ :
    opcodeRows.Pairwise fun a b => a.pattern &&& b.mask ≠ b.pattern &&& a.mask := by
  decide

end Sys2Proof.Claims
end

section

open Sys2Proof Sys2Proof.Claims

/-- Settles O11: to match a row is to have its class nibble and selector, which is what the decoder
tests; and no two patterns agree under both their masks. -/
theorem decodeFollowsTheOpcodeTable : Obligations.DecodeFollowsTheOpcodeTable := by
  refine ⟨rfl, fun op row hrow h => ?_, fun op i h => exists_matching_row_of_decode h, ?_⟩
  · exact decode_of_class_selector op row hrow ((matches_row_iff op hrow).1 h)
  · exact opcodeRows_pairwise_patterns_differ.imp not_matches_both

end

section
/-!
The step of a running core: what the fetch gives, that every instruction answers a next state, and
what becomes of the latch (R54, R90, R173).
-/

namespace Sys2Proof.Machine

open Sys2Proof.Claims

/-- Where `PC + 1` is in range, the fetch gives the big-endian word at `PC` (R54). -/
theorem fetchOpcode_of_in_range {s : State} (h : s.pc.toNat + 1 ≤ 0xFFF) :
    fetchOpcode s = some (BitVec.ofNat 16 (opcodeAt s)) := by
  have hop : composeOpcode (byteAt s s.pc.toNat) (byteAt s (s.pc.toNat + 1))
      = BitVec.ofNat 16 (opcodeAt s) := by
    rw [opcodeAt, ← composeOpcode_toNat, BitVec.ofNat_toNat, BitVec.setWidth_eq]
  have hin : inRange (s.pc.toNat + 1) = true := decide_eq_true h
  rw [fetchOpcode, if_pos hin, hop]

/-- Phase 4 runs exactly when no fault is latched (R90). -/
theorem finishStep_eq_ite (s : State) :
    finishStep s = if s.fault = none then Ticked s else s := by
  split
  next h => exact finishStep_of_running h
  next h => exact finishStep_of_fault h

/-- `t` has the latch of `s`, or is `s` with a fault raised and nothing else changed (R173). -/
def KeepsFaultOrRaises (s t : State) : Prop := t.fault = s.fault ∨ ∃ c info, t = raise s c info

theorem withBlock_keepsFaultOrRaises {s : State} {f : State → State} (len : Nat)
    (hf : (f s).fault = s.fault) : KeepsFaultOrRaises s (withBlock s len f) := by
  obtain ⟨-, h⟩ | ⟨-, h⟩ := withBlock_cases s len f
  · exact .inl (h ▸ hf)
  · exact .inr ⟨_, _, h⟩

theorem callTo_keepsFaultOrRaises (s : State) (w : Word) : KeepsFaultOrRaises s (callTo s w) := by
  obtain ⟨_, h⟩ | ⟨-, h⟩ := callTo_cases s w
  · exact .inl (h ▸ rfl)
  · exact .inr ⟨_, _, h⟩

theorem returnFromCall_keepsFaultOrRaises (s : State) :
    KeepsFaultOrRaises s (returnFromCall s) := by
  obtain ⟨_, h⟩ | ⟨-, h⟩ := returnFromCall_cases s
  · exact .inl (h ▸ rfl)
  · exact .inr ⟨_, _, h⟩

theorem execLdVxK_keepsFault (x : VReg) (s : State) :
    ∃ t, execLdVxK x s = .next t ∧ t.fault = s.fault := by
  rw [execLdVxK]
  cases scanKeys s with
  | some k => exact ⟨_, rfl, rfl⟩
  | none => exact ⟨s, rfl, rfl⟩

/-- Every instruction answers a next state, and one that touches the latch raises a fault on the
state it found. -/
theorem exec_next (i : Instr) (s : State) :
    ∃ t, exec i s = .next t ∧ KeepsFaultOrRaises s t := by
  cases i with
  | ret => exact ⟨_, rfl, returnFromCall_keepsFaultOrRaises s⟩
  | call nnn => exact ⟨_, rfl, callTo_keepsFaultOrRaises s _⟩
  | drw | ldBVx | ldMemVx | ldVxMem => exact ⟨_, rfl, withBlock_keepsFaultOrRaises _ rfl⟩
  | ldVxK x =>
    obtain ⟨t, ht, hfault⟩ := execLdVxK_keepsFault x s
    exact ⟨t, ht, .inl hfault⟩
  | _ => exact ⟨_, rfl, .inl rfl⟩

end Sys2Proof.Machine
end

section

open Sys2Proof Sys2Proof.Machine Sys2Proof.Claims

/-- Settles O13: the three cases before execute are the step's own laws; an executed instruction
answers a next state, and where that is faulted it is the cleared state with the fault raised. -/
theorem stepFollowsTheCycle : Obligations.StepFollowsTheCycle := by
  intro s
  refine ⟨step_of_halted, fun hrun hpc => ?_, fun hrun hpc hunknown => ?_,
    fun i hrun hpc hdec => ?_⟩
  · exact step_of_fetch_none hrun ((fetchOpcode_eq_none_iff s).2 (by omega))
  · cases hdec : decode (BitVec.ofNat 16 (opcodeAt s)) with
    | ok i => exact absurd hdec (hunknown i)
    | error e => exact step_of_decode_error hrun (fetchOpcode_of_in_range hpc) hdec
  · obtain ⟨t, hexec, hlatch⟩ := exec_next i (clearOutputs s)
    refine ⟨t, hexec, ?_, fun hfault => ?_⟩
    · rw [step_of_decode_ok hrun (fetchOpcode_of_in_range hpc) hdec, hexec, ← finishStep_eq_ite]
      rfl
    · obtain hkept | ⟨c, info, rfl⟩ := hlatch
      · exact absurd (hkept.trans hrun) hfault
      · rfl

end

section
/-!
The format words of R82 and what the decoder makes of those of the control-flow instructions (R86).
-/

namespace Sys2Proof

/-! ### The fields of a format word are its operands -/

theorem slice_class_wordNNN {c nnn : Nat} (hc : c < 16) (h : nnn < 4096) :
    slice (wordNNN c nnn) 12 4 = c := by
  rw [slice, wordNNN_toNat hc h]; omega

theorem fieldNNN_wordNNN {c nnn : Nat} (hc : c < 16) (h : nnn < 4096) :
    fieldNNN (wordNNN c nnn) = nnn := by
  rw [fieldNNN_eq, wordNNN_toNat hc h]; omega

theorem slice_class_wordXNN {c : Nat} (hc : c < 16) (x : VReg) (nn : Byte) :
    slice (wordXNN c x nn) 12 4 = c := by
  have := x.isLt; have := nn.isLt
  rw [slice, wordXNN_toNat hc]; omega

theorem fieldX_wordXNN {c : Nat} (hc : c < 16) (x : VReg) (nn : Byte) :
    fieldX (wordXNN c x nn) = x := by
  have := x.isLt; have := nn.isLt
  rw [Fin.ext_iff, fieldX_val, wordXNN_toNat hc]; omega

theorem fieldNN_wordXNN {c : Nat} (hc : c < 16) (x : VReg) (nn : Byte) :
    fieldNN (wordXNN c x nn) = nn := by
  have := nn.isLt
  rw [← BitVec.toNat_inj, fieldNN_toNat, wordXNN_toNat hc]; omega

theorem slice_class_wordXYN {c n : Nat} (hc : c < 16) (x y : VReg) (hn : n < 16) :
    slice (wordXYN c x y n) 12 4 = c := by
  have := x.isLt; have := y.isLt
  rw [slice, wordXYN_toNat hc x y hn]; omega

theorem slice_low_wordXYN {c n : Nat} (hc : c < 16) (x y : VReg) (hn : n < 16) :
    slice (wordXYN c x y n) 0 4 = n := by
  rw [slice, wordXYN_toNat hc x y hn]; omega

theorem fieldX_wordXYN {c n : Nat} (hc : c < 16) (x y : VReg) (hn : n < 16) :
    fieldX (wordXYN c x y n) = x := by
  have := x.isLt; have := y.isLt
  rw [Fin.ext_iff, fieldX_val, wordXYN_toNat hc x y hn]; omega

theorem fieldY_wordXYN {c n : Nat} (hc : c < 16) (x y : VReg) (hn : n < 16) :
    fieldY (wordXYN c x y n) = y := by
  have := y.isLt
  rw [Fin.ext_iff, fieldY_val, wordXYN_toNat hc x y hn]; omega

end Sys2Proof

namespace Sys2Proof.Claims

/-! ### The words of the control-flow instructions -/

theorem decodes_jp {nnn : Nat} (h : nnn < 4096) : Decodes (0x1000 + nnn) (.jp nnn) := by
  change decode (wordNNN 0x1 nnn) = _
  simp only [decode, slice_class_wordNNN, fieldNNN_wordNNN, h, Nat.reduceLT]

theorem decodes_call {nnn : Nat} (h : nnn < 4096) : Decodes (0x2000 + nnn) (.call nnn) := by
  change decode (wordNNN 0x2 nnn) = _
  simp only [decode, slice_class_wordNNN, fieldNNN_wordNNN, h, Nat.reduceLT]

theorem decodes_jpV0 {nnn : Nat} (h : nnn < 4096) : Decodes (0xB000 + nnn) (.jpV0 nnn) := by
  change decode (wordNNN 0xB nnn) = _
  simp only [decode, slice_class_wordNNN, fieldNNN_wordNNN, h, Nat.reduceLT]

theorem decodes_seImm (x : VReg) (nn : Byte) :
    Decodes (0x3000 + x.val * 0x100 + nn.toNat) (.seImm x nn) := by
  change decode (wordXNN 0x3 x nn) = _
  simp only [decode, slice_class_wordXNN, fieldX_wordXNN, fieldNN_wordXNN, Nat.reduceLT]

theorem decodes_sneImm (x : VReg) (nn : Byte) :
    Decodes (0x4000 + x.val * 0x100 + nn.toNat) (.sneImm x nn) := by
  change decode (wordXNN 0x4 x nn) = _
  simp only [decode, slice_class_wordXNN, fieldX_wordXNN, fieldNN_wordXNN, Nat.reduceLT]

theorem decodes_seReg (x y : VReg) :
    Decodes (0x5000 + x.val * 0x100 + y.val * 0x10) (.seReg x y) := by
  change decode (wordXYN 0x5 x y 0) = _
  simp only [decode, decodeClass5, slice_class_wordXYN, slice_low_wordXYN, fieldX_wordXYN,
    fieldY_wordXYN, Nat.reduceLT]

theorem decodes_sneReg (x y : VReg) :
    Decodes (0x9000 + x.val * 0x100 + y.val * 0x10) (.sneReg x y) := by
  change decode (wordXYN 0x9 x y 0) = _
  simp only [decode, decodeClass9, slice_class_wordXYN, slice_low_wordXYN, fieldX_wordXYN,
    fieldY_wordXYN, Nat.reduceLT]

end Sys2Proof.Claims
end

section
/-!
What the control-flow instructions do to the state: jumps, the call stack and the skips (R23, R100
to R110).
-/

namespace Sys2Proof.Machine

open Sys2Proof.Claims

/-! ### Jumps -/

theorem addressWord_toNat {nnn : Nat} (h : nnn < 4096) : (addressWord nnn).toNat = nnn := by
  rw [addressWord, BitVec.toNat_ofNat]; omega

/-- The sum is at most 0xFFF + 0xFF, so it is not reduced (R109). -/
theorem jumpV0Target_toNat (s : State) {nnn : Nat} (h : nnn < 4096) :
    (jumpV0Target s nnn).toNat = nnn + (getV s 0).toNat := by
  have := (getV s 0).isLt
  rw [jumpV0Target, BitVec.toNat_add, addressWord_toNat h, toWord_toNat]; omega

theorem onlyPc_jumpTo (s : State) (w : Word) : OnlyPc s (jumpTo s w) := ⟨rfl, fun _ => rfl⟩

/-! ### The call stack -/

/-- A call with a free entry pushes `PC` and jumps (R100). -/
theorem exec_call_of_room {s : State} (hsp : s.sp.val < 16) (nnn : Nat) :
    exec (.call nnn) s = .next { s with
      stack := s.stack.set s.sp.val s.pc hsp
      sp := ⟨s.sp.val + 1, by omega⟩
      pc := addressWord nnn } := by
  obtain ⟨_, ht⟩ := (callTo_cases s (addressWord nnn)).resolve_right fun hfull => by omega
  exact congrArg Host.Outcome.next ht

/-- A call with a full stack faults (R171). -/
theorem exec_call_of_full {s : State} (hsp : s.sp.val = 16) (nnn : Nat) :
    exec (.call nnn) s = .next (Faulted s .stackOverflow 16) := by
  obtain ⟨-, ht⟩ := (callTo_cases s (addressWord nnn)).resolve_left fun ⟨hlt, _⟩ => by omega
  exact congrArg Host.Outcome.next ht

/-- A return with an entry to pop resumes two bytes after it (R101). -/
theorem exec_ret_of_nonempty {s : State} (hsp : 0 < s.sp.val) :
    exec .ret s = .next { s with
      sp := ⟨s.sp.val - 1, by omega⟩
      pc := s.stack[s.sp.val - 1]'(by omega) + 2 } := by
  obtain ⟨_, ht⟩ := (returnFromCall_cases s).resolve_right fun hempty => by omega
  exact congrArg Host.Outcome.next ht

/-- A return with an empty stack faults (R171). -/
theorem exec_ret_of_empty {s : State} (hsp : s.sp.val = 0) :
    exec .ret s = .next (Faulted s .stackUnderflow 0) := by
  obtain ⟨-, ht⟩ := (returnFromCall_cases s).resolve_left fun ⟨hpos, _⟩ => by omega
  exact congrArg Host.Outcome.next ht

/-! ### Skips -/

/-- An instruction that is a conditional skip changes `PC` only, by 4 or by 2 (R110). -/
theorem answers_of_skipIf {i : Instr} {s : State} {c : Bool} {p : Prop} [Decidable p]
    (hexec : exec i s = .next (skipIf s c)) (hc : c = true ↔ p) :
    Answers i s fun t => OnlyPc s t ∧ t.pc = if p then s.pc + 4 else s.pc + 2 := by
  have hpc : (skipIf s c).pc = if p then s.pc + 4 else s.pc + 2 := by
    simp only [skipIf_eq, advance_pc, ← hc]
    split <;> rfl
  exact ⟨_, hexec, ⟨rfl, fun _ => rfl⟩, hpc⟩

end Sys2Proof.Machine
end

section

open Sys2Proof Sys2Proof.Machine Sys2Proof.Claims

/-- Settles O32: both jumps are `jumpTo`, and neither target is reduced. -/
theorem jumpsSetPcToTheirTarget : Obligations.JumpsSetPcToTheirTarget := by
  intro s nnn h
  exact ⟨⟨decodes_jp h, _, rfl, onlyPc_jumpTo s _, addressWord_toNat h⟩,
    ⟨decodes_jpV0 h, _, rfl, onlyPc_jumpTo s _, jumpV0Target_toNat s h⟩⟩

/-- Settles O33: with a free entry the push is a write at the old `SP`, which every other entry
survives; with `SP = 16` the call only latches the fault. -/
theorem callPushesItsOwnAddress : Obligations.CallPushesItsOwnAddress := by
  intro s nnn h
  refine ⟨decodes_call h, fun hsp => ?_, fun hsp => exec_call_of_full hsp nnn⟩
  have hpush (k : Fin 16) : (s.stack.set s.sp.val s.pc hsp)[k.val]
      = if k.val = s.sp.val then s.pc else s.stack[k.val] := by
    simp only [Vector.getElem_set, eq_comm]
  exact ⟨_, exec_call_of_room hsp nnn, rfl, fun _ => rfl, addressWord_toNat h, rfl, hpush⟩

/-- Settles O34: with an entry on the stack the new `SP` is its index; with `SP = 0` the return only
latches the fault. -/
theorem returnResumesAfterTheCall : Obligations.ReturnResumesAfterTheCall := by
  intro s
  refine ⟨rfl, fun hsp => ?_, exec_ret_of_empty⟩
  refine ⟨_, exec_ret_of_nonempty hsp, rfl, fun _ => rfl, Nat.sub_add_cancel hsp, fun k hk => ?_⟩
  simp only [hk]

/-- Settles O36: each of the four is a `skipIf` of its condition. -/
theorem compareSkipsAddFourOrTwo : Obligations.CompareSkipsAddFourOrTwo := by
  intro s x y nn
  exact ⟨⟨decodes_seImm x nn, answers_of_skipIf rfl beq_iff_eq⟩,
    ⟨decodes_sneImm x nn, answers_of_skipIf rfl bne_iff_ne⟩,
    ⟨decodes_seReg x y, answers_of_skipIf rfl beq_iff_eq⟩,
    ⟨decodes_sneReg x y, answers_of_skipIf rfl bne_iff_ne⟩⟩

end

section
/-!
The words of the ALU instructions: what the decoder makes of classes 6, 7 and 8 (R86).
-/

namespace Sys2Proof.Claims

theorem decodes_ldImm (x : VReg) (nn : Byte) :
    Decodes (0x6000 + x.val * 0x100 + nn.toNat) (.ldImm x nn) := by
  change decode (wordXNN 0x6 x nn) = _
  simp only [decode, slice_class_wordXNN, fieldX_wordXNN, fieldNN_wordXNN, Nat.reduceLT]

theorem decodes_addImm (x : VReg) (nn : Byte) :
    Decodes (0x7000 + x.val * 0x100 + nn.toNat) (.addImm x nn) := by
  change decode (wordXNN 0x7 x nn) = _
  simp only [decode, slice_class_wordXNN, fieldX_wordXNN, fieldNN_wordXNN, Nat.reduceLT]

/-- The instruction form of each selector of class 8 (R85, R86). -/
def class8Form : Nat → Option (VReg → VReg → Instr)
  | 0x0 => some .ldReg
  | 0x1 => some .orReg
  | 0x2 => some .andReg
  | 0x3 => some .xorReg
  | 0x4 => some .addReg
  | 0x5 => some .subReg
  | 0x6 => some .shr
  | 0x7 => some .subnReg
  | 0xE => some .shl
  | _ => none

/-- A selector with a form is a nibble. -/
theorem lt_of_class8Form {n : Nat} {form : VReg → VReg → Instr} (h : class8Form n = some form) :
    n < 16 := by
  unfold class8Form at h
  split at h
  case h_10 => cases h
  all_goals decide

/-- The second level of class 8 reads the form off the selector, and its operands off the fields. -/
theorem decodeClass8_of_class8Form {op : Word} {form : VReg → VReg → Instr}
    (h : class8Form (slice op 0 4) = some form) :
    decodeClass8 op = .ok (form (fieldX op) (fieldY op)) := by
  unfold class8Form at h
  split at h
  case h_10 => cases h
  all_goals
    cases h
    simp only [decodeClass8, *]

/-- The word `8xyn` is the instruction of its selector `n`, whatever the fields `x` and `y` are. -/
theorem decodes_class8 {n : Nat} {form : VReg → VReg → Instr} (h : class8Form n = some form)
    (x y : VReg) : Decodes (0x8000 + n + x.val * 0x100 + y.val * 0x10) (form x y) := by
  have hn : n < 16 := lt_of_class8Form h
  have hword : BitVec.ofNat 16 (0x8000 + n + x.val * 0x100 + y.val * 0x10) = wordXYN 0x8 x y n := by
    rw [wordXYN]; congr 1; omega
  have hclass : decode (wordXYN 0x8 x y n) = decodeClass8 (wordXYN 0x8 x y n) := by
    simp only [decode, slice_class_wordXYN, hn, Nat.reduceLT]
  have hform : class8Form (slice (wordXYN 0x8 x y n) 0 4) = some form := by
    rwa [slice_low_wordXYN (by decide) x y hn]
  rw [Decodes, hword, hclass, decodeClass8_of_class8Form hform,
    fieldX_wordXYN (by decide) x y hn, fieldY_wordXYN (by decide) x y hn]

end Sys2Proof.Claims
end

section
/-!
The results and flags of the ALU instructions as numbers (R123, R128 to R132), and the register
writes they end in (R121).
-/

namespace Sys2Proof.Machine

open Sys2Proof.Claims

/-! ### Results and flags -/

theorem sumByte_eq_ofNat (a b : Byte) :
    sumByte a b = BitVec.ofNat 8 ((a.toNat + b.toNat) % 256) := by
  rw [← BitVec.toNat_inj, sumByte, BitVec.toNat_add, BitVec.toNat_ofNat]; omega

theorem carryFlag_eq_ite (a b : Byte) :
    carryFlag a b = if a.toNat + b.toNat > 255 then 1 else 0 := by
  simp only [carryFlag, bitByte, decide_eq_true_eq]

theorem differenceByte_eq_ofNat (a b : Byte) :
    differenceByte a b = BitVec.ofNat 8 ((a.toNat + 256 - b.toNat) % 256) := by
  have := b.isLt
  rw [← BitVec.toNat_inj, differenceByte, BitVec.toNat_sub, BitVec.toNat_ofNat]; omega

theorem noBorrowFlag_eq_ite (a b : Byte) :
    noBorrowFlag a b = if a.toNat ≥ b.toNat then 1 else 0 := by
  simp only [noBorrowFlag, bitByte, decide_eq_true_eq]

theorem shiftRightByte_eq_ofNat (a : Byte) :
    shiftRightByte a = BitVec.ofNat 8 (a.toNat / 2) := by
  have := a.isLt
  rw [← BitVec.toNat_inj, shiftRightByte, BitVec.toNat_ushiftRight, Nat.shiftRight_eq_div_pow,
    BitVec.toNat_ofNat]
  omega

theorem shiftLeftByte_eq_ofNat (a : Byte) :
    shiftLeftByte a = BitVec.ofNat 8 (2 * a.toNat % 256) := by
  rw [← BitVec.toNat_inj, shiftLeftByte, BitVec.toNat_shiftLeft, Nat.shiftLeft_eq,
    BitVec.toNat_ofNat]
  omega

/-- The bit `k` of a byte, stored as a flag. -/
theorem bitByte_getLsbD (a : Byte) (k : Nat) :
    bitByte (a.getLsbD k) = BitVec.ofNat 8 (a.toNat / 2 ^ k % 2) := by
  rw [BitVec.getLsbD, Nat.testBit_eq_decide_div_mod_eq]
  obtain h | h := Nat.mod_two_eq_zero_or_one (a.toNat / 2 ^ k) <;> rw [h] <;> rfl

theorem shiftedOutLow_eq_ofNat (a : Byte) :
    shiftedOutLow a = BitVec.ofNat 8 (a.toNat % 2) := by
  rw [shiftedOutLow, bitByte_getLsbD, pow_zero, Nat.div_one]

/-- Bit 7 is the top bit, so nothing is left above it (R132). -/
theorem shiftedOutHigh_eq_ofNat (a : Byte) :
    shiftedOutHigh a = BitVec.ofNat 8 (a.toNat / 128) := by
  have := a.isLt
  rw [shiftedOutHigh, bitByte_getLsbD, Nat.mod_eq_of_lt (by omega)]; rfl

/-! ### Instructions that end in a register write -/

section
variable {i : Instr} {s : State} {x : VReg} {r r' f f' : Byte}

/-- A result into `Vx` changes `PC` and that register only (R122 to R127). -/
theorem answers_of_writeResult (hexec : exec i s = .next (writeResult s x r)) (hr : r = r') :
    Answers i s fun t => WritesRegister s t x r' := by
  subst hr
  exact ⟨_, hexec, ⟨rfl, fun _ => rfl⟩, rfl, fun q => getV_setV s x q r⟩

/-- Result first, then the flag: `VF` holds the flag also when `x = 15` (R121). -/
theorem answers_of_writeResultThenFlag (hexec : exec i s = .next (writeResultThenFlag s x r f))
    (hr : r = r') (hf : f = f') :
    Answers i s fun t => OnlyPcAndV s t ∧ t.pc = s.pc + 2 ∧
      ∀ q, getV t q = if q = 15 then f' else if q = x then r' else getV s q := by
  subst hr hf
  refine ⟨_, hexec, ⟨rfl, fun _ => rfl⟩, rfl, fun q => ?_⟩
  simp only [writeResultThenFlag_eq, getV_advance, getV_setV, vf]

/-- Flag first, then the result: `Vx` holds the result also when `x = 15` (R121). -/
theorem answers_of_writeFlagThenResult (hexec : exec i s = .next (writeFlagThenResult s x r f))
    (hr : r = r') (hf : f = f') :
    Answers i s fun t => OnlyPcAndV s t ∧ t.pc = s.pc + 2 ∧
      ∀ q, getV t q = if q = x then r' else if q = 15 then f' else getV s q := by
  subst hr hf
  refine ⟨_, hexec, ⟨rfl, fun _ => rfl⟩, rfl, fun q => ?_⟩
  simp only [writeFlagThenResult_eq, getV_advance, getV_setV, vf]

end

end Sys2Proof.Machine
end

section

open Sys2Proof Sys2Proof.Machine Sys2Proof.Claims

/-- Settles O37: each of the three is one register write, of the immediate, the wrapped sum or the
copy. -/
theorem loadAddImmediateAndCopy : Obligations.LoadAddImmediateAndCopy := by
  intro s x y nn
  exact ⟨⟨decodes_ldImm x nn, answers_of_writeResult rfl rfl⟩,
    ⟨decodes_addImm x nn, answers_of_writeResult rfl (sumByte_eq_ofNat _ _)⟩,
    ⟨decodes_class8 (n := 0x0) rfl x y, answers_of_writeResult rfl rfl⟩⟩

/-- Settles O38: each of the three is one register write of the bitwise result. -/
theorem bitwiseInstructionsSetNoFlag : Obligations.BitwiseInstructionsSetNoFlag := by
  intro s x y
  exact ⟨⟨decodes_class8 (n := 0x1) rfl x y, answers_of_writeResult rfl rfl⟩,
    ⟨decodes_class8 (n := 0x2) rfl x y, answers_of_writeResult rfl rfl⟩,
    ⟨decodes_class8 (n := 0x3) rfl x y, answers_of_writeResult rfl rfl⟩⟩

/-- Settles O39: the carry is written after the sum, so it is what `VF` keeps. -/
theorem addWritesSumThenCarry : Obligations.AddWritesSumThenCarry := by
  intro s x y
  exact ⟨decodes_class8 (n := 0x4) rfl x y,
    answers_of_writeResultThenFlag rfl (sumByte_eq_ofNat _ _) (carryFlag_eq_ite _ _)⟩

/-- Settles O40: the difference is written after NOT borrow, so it is what `Vx` keeps. -/
theorem subtractWritesNoBorrowThenDifference :
    Obligations.SubtractWritesNoBorrowThenDifference := by
  intro s x y
  exact ⟨⟨decodes_class8 (n := 0x5) rfl x y, answers_of_writeFlagThenResult rfl
      (differenceByte_eq_ofNat _ _) (noBorrowFlag_eq_ite _ _)⟩,
    ⟨decodes_class8 (n := 0x7) rfl x y, answers_of_writeFlagThenResult rfl
      (differenceByte_eq_ofNat _ _) (noBorrowFlag_eq_ite _ _)⟩⟩

/-- Settles O41: neither the shifted value nor the bit shifted out is computed from `y`, and the
shifted value is written last. -/
theorem shiftsIgnoreTheFieldY : Obligations.ShiftsIgnoreTheFieldY := by
  intro s x y
  exact ⟨⟨decodes_class8 (n := 0x6) rfl x y, answers_of_writeFlagThenResult rfl
      (shiftRightByte_eq_ofNat _) (shiftedOutLow_eq_ofNat _)⟩,
    ⟨decodes_class8 (n := 0xE) rfl x y, answers_of_writeFlagThenResult rfl
      (shiftLeftByte_eq_ofNat _) (shiftedOutHigh_eq_ofNat _)⟩⟩

end

section
/-!
The words of format X (R82), read off their rows of the opcode table (R86).
-/

namespace Sys2Proof

theorem slice_class_wordX {c sel : Nat} (hc : c < 16) (x : VReg) (hsel : sel < 256) :
    slice (wordX c x sel) 12 4 = c := by
  have := x.isLt
  rw [slice, wordX_toNat hc x hsel]; omega

theorem slice_low_wordX {c sel : Nat} (hc : c < 16) (x : VReg) (hsel : sel < 256) :
    slice (wordX c x sel) 0 8 = sel := by
  rw [slice, wordX_toNat hc x hsel]; omega

theorem fieldX_wordX {c sel : Nat} (hc : c < 16) (x : VReg) (hsel : sel < 256) :
    fieldX (wordX c x sel) = x := by
  have := x.isLt
  rw [Fin.ext_iff, fieldX_val, wordX_toNat hc x hsel]; omega

end Sys2Proof

namespace Sys2Proof.Claims

theorem decodes_ldI {nnn : Nat} (h : nnn < 4096) : Decodes (0xA000 + nnn) (.ldI nnn) := by
  change decode (wordNNN 0xA nnn) = _
  simp only [decode, slice_class_wordNNN, fieldNNN_wordNNN, h, Nat.reduceLT]

/-- The row of an instruction of class F: its word `Fxss` has the selector `sel` in the low byte. -/
def classFRow (sel : Nat) (form : VReg → Instr) : Row :=
  ⟨BitVec.ofNat 16 (0xF000 + sel), 0xF0FF, fun op => form (opX op)⟩

/-- The word `Fxss` is the instruction of the row of its selector, whatever the field `x` is. -/
theorem decodes_classF {sel : Nat} {form : VReg → Instr} (hsel : sel < 256)
    (hrow : classFRow sel form ∈ opcodeRows) (x : VReg) :
    Decodes (0xF000 + sel + x.val * 0x100) (form x) := by
  have hword : BitVec.ofNat 16 (0xF000 + sel + x.val * 0x100) = wordX 0xF x sel := by
    rw [wordX]; congr 1; omega
  have hclass : slice (classFRow sel form).pattern 12 4 = 0xF := by
    rw [classFRow, slice_ofNat]; omega
  have hlow : slice (classFRow sel form).pattern 0 12 = sel := by
    rw [classFRow, slice_ofNat]; omega
  have hx : opX (wordX 0xF x sel) = x := by
    rw [opX_eq_fieldX, fieldX_wordX (by decide) x hsel]
  have hdec : decode (wordX 0xF x sel) = .ok (form (opX (wordX 0xF x sel))) :=
    decode_of_class_selector _ _ hrow
      ⟨by rw [hclass, slice_class_wordX (by decide) x hsel],
        (slice_low_wordX (by decide) x hsel).trans hlow.symm⟩
  rw [Decodes, hword, hdec, hx]

theorem decodes_addIVx (x : VReg) : Decodes (0xF01E + x.val * 0x100) (.addIVx x) :=
  decodes_classF (sel := 0x1E) (by decide) (by simp [classFRow, opcodeRows]) x

theorem decodes_ldFVx (x : VReg) : Decodes (0xF029 + x.val * 0x100) (.ldFVx x) :=
  decodes_classF (sel := 0x29) (by decide) (by simp [classFRow, opcodeRows]) x

theorem decodes_ldBVx (x : VReg) : Decodes (0xF033 + x.val * 0x100) (.ldBVx x) :=
  decodes_classF (sel := 0x33) (by decide) (by simp [classFRow, opcodeRows]) x

theorem decodes_ldMemVx (x : VReg) : Decodes (0xF055 + x.val * 0x100) (.ldMemVx x) :=
  decodes_classF (sel := 0x55) (by decide) (by simp [classFRow, opcodeRows]) x

theorem decodes_ldVxMem (x : VReg) : Decodes (0xF065 + x.val * 0x100) (.ldVxMem x) :=
  decodes_classF (sel := 0x65) (by decide) (by simp [classFRow, opcodeRows]) x

end Sys2Proof.Claims
end

section
/-!
What the index and memory instructions do to the state: the one write of `I` (R140 to R142), and the
store and the load of a block in range (R143, R145, R146).
-/

namespace Sys2Proof.Machine

open Sys2Proof.Claims

/-! ### The index register -/

theorem indexSum_toNat (i : Word) (a : Byte) :
    (indexSum i a).toNat = (i.toNat + a.toNat) % 0x10000 := by
  rw [indexSum, BitVec.toNat_add, toWord_toNat]

/-- The font begins at address 0, and the last glyph at 75, so the address is not reduced (R142). -/
theorem fontAddress_toNat (a : Byte) : (fontAddress a).toNat = a.toNat % 16 * 5 := by
  simp only [fontAddress, Config.fontBase, Config.glyphBytes, BitVec.toNat_ofNat]; omega

/-- An instruction that ends in a write of `I` changes `PC` and `I` only. -/
theorem answers_of_writeIndex {i : Instr} {s : State} {w : Word} {n : Nat}
    (hexec : exec i s = .next (writeIndex s w)) (hw : w.toNat = n) :
    Answers i s fun t => WritesIndex s t n :=
  ⟨_, hexec, rfl, fun _ => rfl, hw⟩

/-! ### Blocks in range -/

/-- Hundreds, tens and ones are single digits, so no byte reduces them (R143). -/
theorem bcdDigits_getD_toNat (a : Byte) :
    ((bcdDigits a).getD 0 0).toNat = a.toNat / 100 ∧
    ((bcdDigits a).getD 1 0).toNat = a.toNat / 10 % 10 ∧
    ((bcdDigits a).getD 2 0).toNat = a.toNat % 10 := by
  have := a.isLt
  simp only [bcdDigits, List.getD_cons_zero, List.getD_cons_succ, BitVec.toNat_ofNat]
  omega

/-- A store of a block in range changes `PC` and memory only: byte `k` of the block is read back at
`I + k`, and every address outside the block reads as before. -/
theorem answers_of_storeBlock {i : Instr} {s : State} {bs : List Byte}
    (hexec : exec i s = .next (withBlock s bs.length (storeBlock bs))) (hmem : MemWf s)
    (hin : s.i.toNat + bs.length ≤ 0x1000) :
    Answers i s fun t =>
      t = { s with pc := s.pc + 2, mem := t.mem } ∧
      (∀ k, k < bs.length → byteAt t (s.i.toNat + k) = bs.getD k 0) ∧
      ∀ a, (a < s.i.toNat ∨ s.i.toNat + bs.length ≤ a) → byteAt t a = byteAt s a := by
  rw [withBlock_of_in_range _ (.inr hin), storeBlock_eq] at hexec
  have hread := byteAt_storeBytes bs hmem hin
  refine ⟨_, hexec, rfl, fun k hk => ?_, fun a ha => ?_⟩
  · rw [byteAt_advance, hread, if_pos ⟨by omega, by omega⟩, Nat.add_sub_cancel_left]
  · rw [byteAt_advance, hread, if_neg (by omega)]

/-- A load of a block in range changes `PC` and the V registers only: up to `Vx` each is read from its
byte of the block, above it each is kept (R146). -/
theorem exec_ldVxMem_of_in_range {s : State} {x : VReg} (hin : s.i.toNat + x.val ≤ 0xFFF) :
    ∃ v : Vector Byte 16, exec (.ldVxMem x) s = .next { s with pc := s.pc + 2, v := v } ∧
      ∀ r : VReg, v[r.val] = if r.val ≤ x.val then byteAt s (s.i.toNat + r.val) else getV s r := by
  have hblock : s.i.toNat + blockLength x ≤ 0x1000 := Nat.succ_le_succ hin
  obtain ⟨v, hv⟩ : ∃ v, loadRegisterBlock s x = { s with v := v } := ⟨_, rfl⟩
  have hread := getV_loadRegisterBlock s x
  rw [hv] at hread
  refine ⟨v, ?_, hread⟩
  rw [exec, execLdVxMem, withBlock_of_in_range _ (.inr hblock), hv]; rfl

end Sys2Proof.Machine
end

section

open Sys2Proof Sys2Proof.Machine Sys2Proof.Claims

/-- Settles O44: the stored block is the three digits, which fit where `I` is at most 0xFFD. -/
theorem bcdStoresThreeDigits : Obligations.BcdStoresThreeDigits := by
  intro s x hmem
  refine ⟨decodes_ldBVx x, fun hin => ?_, fun hout => ?_⟩
  · obtain ⟨t, hexec, hframe, hstored, hkept⟩ := answers_of_storeBlock (i := .ldBVx x)
      (bs := bcdDigits (getV s x)) rfl hmem (Nat.add_le_add_right hin 3)
    obtain ⟨hhundreds, htens, hones⟩ := bcdDigits_getD_toNat (getV s x)
    refine ⟨t, hexec, hframe, ?_, ?_, ?_, hkept⟩
    · rw [← hhundreds, ← hstored 0 (by simp), Nat.add_zero]
    · rw [← htens, ← hstored 1 (by simp)]
    · rw [← hones, ← hstored 2 (by simp)]
  · exact exec_of_block_out_of_range (Nat.succ_pos 2) (Nat.add_lt_add_right hout 3)

/-- Settles O45: the stored block is `V0` to `Vx` in ascending order, `x + 1` bytes. -/
theorem registerDumpStoresTheBlock : Obligations.RegisterDumpStoresTheBlock := by
  intro s x hmem
  refine ⟨decodes_ldMemVx x, fun hin => ?_, fun hout => ?_⟩
  · have hlen : (registerBlock s x).length = x.val + 1 := registerBlock_length s x
    obtain ⟨t, hexec, hframe, hstored, hkept⟩ := answers_of_storeBlock (i := .ldMemVx x)
      (bs := registerBlock s x) (by rw [hlen]; rfl) hmem (by omega)
    refine ⟨t, hexec, hframe, fun k hk => ?_, fun a ha => hkept a (by omega)⟩
    rw [hstored k.val (by omega), registerBlock_getD s x k hk]
  · exact exec_of_block_out_of_range x.val.succ_pos (Nat.succ_lt_succ hout)

/-- Settles O46: in range the load touches the V registers only, and reads each up to `Vx` from its
byte of the block. -/
theorem registerLoadReadsTheBlock : Obligations.RegisterLoadReadsTheBlock := by
  intro s x
  refine ⟨decodes_ldVxMem x, fun hin => ?_, fun hout => ?_⟩
  · obtain ⟨v, hexec, hread⟩ := exec_ldVxMem_of_in_range hin
    exact ⟨_, hexec, ⟨rfl, fun _ => rfl⟩, rfl, hread⟩
  · exact exec_of_block_out_of_range x.val.succ_pos (Nat.succ_lt_succ hout)

/-- Settles O43: each of the three is one write of `I`, of the address, the sum wrapped at 16 bits or
the address of the glyph. -/
theorem indexWritesSetNoFlag : Obligations.IndexWritesSetNoFlag := by
  intro s x nnn h
  exact ⟨⟨decodes_ldI h, answers_of_writeIndex rfl (addressWord_toNat h)⟩,
    ⟨decodes_addIVx x, answers_of_writeIndex rfl (indexSum_toNat _ _)⟩,
    ⟨decodes_ldFVx x, answers_of_writeIndex rfl (fontAddress_toNat _)⟩⟩

end

section
/-!
The word of `DRW`: its row count is the low nibble (R81, R86).
-/

namespace Sys2Proof

theorem fieldN_wordXYN {c n : Nat} (hc : c < 16) (x y : VReg) (hn : n < 16) :
    fieldN (wordXYN c x y n) = n := slice_low_wordXYN hc x y hn

end Sys2Proof

namespace Sys2Proof.Claims

theorem decodes_drw (x y : VReg) {n : Nat} (hn : n < 16) :
    Decodes (0xD000 + x.val * 0x100 + y.val * 0x10 + n) (.drw x y n) := by
  change decode (wordXYN 0xD x y n) = _
  simp only [decode, slice_class_wordXYN, fieldX_wordXYN, fieldY_wordXYN, fieldN_wordXYN, hn,
    Nat.reduceLT]

end Sys2Proof.Claims
end

section
/-!
The flat numbering of the framebuffer cells (R29), and what the loops of `DRW` (R151) do to the cell
of each number.
-/

namespace Sys2Proof.Machine

open Sys2Proof.Claims

/-! ### Numbering the cells -/

/-- The number of the cell in row `row` and column `col` (R29). -/
def cellIndex (row : Fin 32) (col : Fin 64) : Fin 2048 := ⟨row.val * 64 + col.val, by omega⟩

@[simp] theorem cellIndex_val (row : Fin 32) (col : Fin 64) :
    (cellIndex row col).val = row.val * 64 + col.val := rfl

@[simp] theorem cellIndex_inj {row row' : Fin 32} {col col' : Fin 64} :
    cellIndex row col = cellIndex row' col' ↔ row = row' ∧ col = col' := by
  simp only [Fin.ext_iff, cellIndex_val]; omega

/-- Every number is the number of a cell. -/
theorem exists_eq_cellIndex (k : Fin 2048) : ∃ row col, k = cellIndex row col :=
  ⟨⟨k.val / 64, by omega⟩, ⟨k.val % 64, by omega⟩, Fin.ext (Nat.div_add_mod' k.val 64).symm⟩

@[simp] theorem fbCell_cellIndex (fb : Framebuffer) (row : Fin 32) (col : Fin 64) :
    fbCell fb (cellIndex row col) = pixel fb row col := by
  have hrow : (row.val * 64 + col.val) / 64 = row.val := by omega
  have hcol : (row.val * 64 + col.val) % 64 = col.val := by omega
  simp only [fbCell, cellIndex_val, hrow, hcol]

/-! ### The cells under the sprite -/

/-- The cell bit `7 - c` of sprite byte `r` falls on. -/
theorem cellIndex_spriteRow_spriteCol_val (vx vy : Byte) (r c : Nat) :
    (cellIndex (spriteRow vy r) (spriteCol vx c)).val
      = (vy.toNat + r) % 32 * 64 + (vx.toNat + c) % 64 := rfl

/-- The cells R151 names are the pixels the two loops reach. -/
theorem covered_cellIndex_iff (s : State) (vx vy : Byte) (n : Nat) (row : Fin 32) (col : Fin 64) :
    Covered s vx vy n (cellIndex row col) ↔ SpriteCovers s vx vy n row col := by
  simp only [Covered, SpriteCovers, RowCovers, spriteBit, ← cellIndex_spriteRow_spriteCol_val,
    Fin.val_inj, cellIndex_inj]
  constructor
  · rintro ⟨r, hr, c, hc, ⟨hrow, hcol⟩, hbit⟩
    exact ⟨r, hr, hrow, c, hc, hcol, hbit⟩
  · rintro ⟨r, hr, hrow, c, hc, hcol, hbit⟩
    exact ⟨r, hr, c, hc, ⟨hrow, hcol⟩, hbit⟩

section
variable (s : State) (vx vy : Byte) (p : Framebuffer × Bool) {n : Nat}

/-- Drawing toggles exactly the covered cells. -/
theorem fbCell_drawSprite_iff (hn : n ≤ 32) (k : Fin 2048) :
    fbCell (drawSprite s vx vy p n).1 k = true ↔
      ¬ (fbCell p.1 k = true ↔ Covered s vx vy n k) := by
  obtain ⟨row, col, rfl⟩ := exists_eq_cellIndex k
  rw [fbCell_cellIndex, fbCell_cellIndex, covered_cellIndex_iff]
  exact (drawSprite_spec s vx vy p hn).1 row col

/-- Drawing records a collision exactly when a covered cell was set. -/
theorem drawSprite_collision_iff (hn : n ≤ 32) :
    (drawSprite s vx vy p n).2 = true ↔
      p.2 = true ∨ ∃ k, Covered s vx vy n k ∧ fbCell p.1 k = true := by
  rw [(drawSprite_spec s vx vy p hn).2]
  refine or_congr_right ⟨?_, ?_⟩
  · rintro ⟨row, col, hcov, hset⟩
    exact ⟨cellIndex row col, (covered_cellIndex_iff ..).2 hcov, (fbCell_cellIndex ..).trans hset⟩
  · rintro ⟨k, hcov, hset⟩
    obtain ⟨row, col, rfl⟩ := exists_eq_cellIndex k
    exact ⟨row, col, (covered_cellIndex_iff ..).1 hcov, (fbCell_cellIndex ..).symm.trans hset⟩

end

/-! ### The instruction -/

theorem bitByte_eq_zero_or_one (c : Bool) : bitByte c = 0 ∨ bitByte c = 1 := by
  cases c
  · exact .inl rfl
  · exact .inr rfl

/-- A `DRW` whose block is in range draws and writes the result back (R59, R151). -/
theorem exec_drw_of_in_range {s : State} (x y : VReg) {n : Nat}
    (hin : n = 0 ∨ s.i.toNat + n ≤ 0x1000) :
    exec (.drw x y n) s =
      .next (finishDraw s (drawSprite s (getV s x) (getV s y) (s.fb, false) n)) := by
  rw [exec, execDrw, withBlock_of_in_range _ hin]

/-- The registers after a draw: the collision in `VF`, every other one as before. -/
theorem getV_finishDraw (s : State) (p : Framebuffer × Bool) (r : VReg) :
    getV (finishDraw s p) r = if r = 15 then bitByte p.2 else getV s r := by
  rw [finishDraw_eq, getV_advance, getV_setV]; rfl

end Sys2Proof.Machine
end

section

open Sys2Proof Sys2Proof.Machine Sys2Proof.Claims

/-- Settles O49: the framebuffer `CLS` writes has no cell set, whatever the old one was. -/
theorem clearScreenZeroesEveryCell : Obligations.ClearScreenZeroesEveryCell := by
  intro s
  exact ⟨rfl, _, rfl, rfl, fun _ => rfl, fbCell_replicate⟩

/-- Settles O50: in range the toggled cells and the collision are those of the two loops, and `VF` is
the collision; out of range the block check faults before anything is drawn. -/
theorem drawTogglesExactlyTheCoveredCells : Obligations.DrawTogglesExactlyTheCoveredCells := by
  intro s x y n hn
  refine ⟨decodes_drw x y hn, fun hin => ?_, fun hpos hout => ?_⟩
  · have hvf := getV_finishDraw s (drawSprite s (getV s x) (getV s y) (s.fb, false) n)
    refine ⟨_, exec_drw_of_in_range x y hin, rfl, fun _ => rfl, ?_, ?_, ?_, fun r hr => ?_⟩
    · exact fbCell_drawSprite_iff s (getV s x) (getV s y) (s.fb, false) (by omega)
    · rw [hvf, if_pos rfl]
      exact bitByte_eq_zero_or_one _
    · rw [hvf, if_pos rfl, bitByte_eq_one, drawSprite_collision_iff _ _ _ _ (by omega)]
      simp only [Bool.false_eq_true, false_or]
    · rw [hvf, if_neg hr]
  · exact exec_of_block_out_of_range hpos hout

end

section
/-!
The words of the key instructions (R86): the skips of class E and `LD Vx, K` of class F.
-/

namespace Sys2Proof.Claims

/-- A word of format X is its class and selector with the register index in `op[11:8]` (R82). -/
theorem decodes_of_decode_wordX {c sel : Nat} {x : VReg} {i : Instr}
    (h : decode (wordX c x sel) = .ok i) : Decodes (c * 0x1000 + sel + x.val * 0x100) i := by
  have hword : BitVec.ofNat 16 (c * 0x1000 + sel + x.val * 0x100) = wordX c x sel := by
    rw [wordX]; congr 1; omega
  rwa [Decodes, hword]

theorem decodes_skp (x : VReg) : Decodes (0xE09E + x.val * 0x100) (.skp x) := by
  refine decodes_of_decode_wordX (c := 0xE) (sel := 0x9E) ?_
  simp only [decode, decodeClassE, slice_class_wordX, slice_low_wordX, fieldX_wordX, Nat.reduceLT]

theorem decodes_sknp (x : VReg) : Decodes (0xE0A1 + x.val * 0x100) (.sknp x) := by
  refine decodes_of_decode_wordX (c := 0xE) (sel := 0xA1) ?_
  simp only [decode, decodeClassE, slice_class_wordX, slice_low_wordX, fieldX_wordX, Nat.reduceLT]

theorem decodes_ldVxK (x : VReg) : Decodes (0xF00A + x.val * 0x100) (.ldVxK x) :=
  decodes_classF (sel := 0x0A) (by decide) (by simp [classFRow, opcodeRows]) x

end Sys2Proof.Claims
end

section
/-!
What the key instructions do to the state: the key the skips test (R160, R161), and the two outcomes
of `LD Vx, K` (R162).
-/

namespace Sys2Proof.Machine

/-- The key index is the low nibble, for values above 0x0F too (R160). -/
theorem keyIndex_val (a : Byte) : (keyIndex a).val = a.toNat % 16 := Nat.mod_mod _ _

/-- With no key down `LD Vx, K` leaves the state as it is, `PC` included (R162). -/
theorem exec_ldVxK_of_no_key {s : State} (h : ∀ k, keyDown s k = false) (x : VReg) :
    exec (.ldVxK x) s = .next s := by
  rw [exec, execLdVxK, (scanKeys_eq_none_iff s).2 h]

/-- With a key down `LD Vx, K` is a register write of the least such index (R162). -/
theorem exec_ldVxK_of_least_key {s : State} {k : Fin 16} (hk : keyDown s k = true)
    (hlow : ∀ j < k, keyDown s j = false) (x : VReg) :
    exec (.ldVxK x) s = .next (writeResult s x (keyByte k)) := by
  rw [exec, execLdVxK, (scanKeys_eq_some_iff s k).2 ⟨hk, hlow⟩]

end Sys2Proof.Machine
end

section

open Sys2Proof Sys2Proof.Machine Sys2Proof.Claims

/-- Settles O53: the scan finds the least pressed key, which is then written as by any other
register write; where it finds none, the state is answered unchanged. -/
theorem blockOnKeyTakesTheLeastPressedKey : Obligations.BlockOnKeyTakesTheLeastPressedKey := by
  intro s x
  refine ⟨decodes_ldVxK x, fun hnone => ?_, fun k hk hlow => ?_⟩
  · exact exec_ldVxK_of_no_key hnone x
  · exact answers_of_writeResult (exec_ldVxK_of_least_key hk hlow x) rfl

/-- Settles O52: both are a `skipIf` on the key of the low nibble, `SKNP` with the condition
negated. -/
theorem keySkipsTestTheLowNibble : Obligations.KeySkipsTestTheLowNibble := by
  intro s x k hk
  obtain rfl : keyIndex (getV s x) = k := Fin.ext ((keyIndex_val _).trans hk.symm)
  exact ⟨⟨decodes_skp x, answers_of_skipIf rfl Iff.rfl⟩,
    ⟨decodes_sknp x, answers_of_skipIf rfl (Bool.not_eq_true' _).to_iff⟩⟩

end

section
/-!
What a step of a running core leaves behind (R90), and what the execute phase does to the timers and
to the report of an unknown opcode (R172, R183).
-/

namespace Sys2Proof.Machine

open Sys2Proof.Claims

/-- A word decodes to at most one instruction. -/
theorem decodes_unique {w : Nat} {i j : Instr} (hi : Decodes w i) (hj : Decodes w j) : i = j :=
  Except.ok.inj (hi.symm.trans hj)

/-- The three ends of a step of a running core: the fetch faults, the opcode is unknown, or an
instruction is executed, after which the timers tick unless it latched a fault. -/
theorem step_running_cases {s t : State} (hrun : s.fault = none) (hstep : step s = .next t) :
    (0xFFF < s.pc.toNat + 1 ∧ t = Faulted s .fetchOutOfRange s.pc.toNat) ∨
    (s.pc.toNat + 1 ≤ 0xFFF ∧ (∀ i, ¬ Decodes (opcodeAt s) i) ∧ t = Ticked { s with
      pc := s.pc + 2, unk := some ⟨BitVec.ofNat 16 (opcodeAt s), s.pc⟩ }) ∨
    ∃ i u, Decodes (opcodeAt s) i ∧ exec i (clearOutputs s) = .next u ∧
      ((u.fault = none ∧ t = Ticked u) ∨
        ∃ f, t = { s with fault := some f, tone := false, unk := none }) := by
  obtain ⟨-, hfetch, hunknown, hexecute⟩ := stepFollowsTheCycle s
  by_cases hpc : 0xFFF < s.pc.toNat + 1
  · rw [hfetch hrun hpc] at hstep
    exact .inl ⟨hpc, (Host.Outcome.next.inj hstep).symm⟩
  by_cases hdec : ∃ i, Decodes (opcodeAt s) i
  · obtain ⟨i, hi⟩ := hdec
    obtain ⟨u, hu, hend, hfaulted⟩ := hexecute i hrun (Nat.not_lt.1 hpc) hi
    obtain rfl := Host.Outcome.next.inj (hend.symm.trans hstep)
    refine .inr (.inr ⟨i, u, hi, hu, ?_⟩)
    cases hlatch : u.fault with
    | none => exact .inl ⟨rfl, if_pos rfl⟩
    | some f =>
      rw [hlatch] at hfaulted
      exact .inr ⟨f, hfaulted nofun⟩
  · have hnone : ∀ i, ¬ Decodes (opcodeAt s) i := not_exists.1 hdec
    rw [hunknown hrun (Nat.not_lt.1 hpc) hnone] at hstep
    exact .inr (.inl ⟨Nat.not_lt.1 hpc, hnone, (Host.Outcome.next.inj hstep).symm⟩)

/-- `DT` as the timer phase finds it: only `LD DT, Vx` writes it (R164, R183). -/
def dtExecuted (i : Instr) (s : State) : Byte :=
  match i with
  | .ldDtVx x => getV s x
  | _ => s.dt

/-- `ST` as the timer phase finds it: only `LD ST, Vx` writes it (R165, R183). -/
def stExecuted (i : Instr) (s : State) : Byte :=
  match i with
  | .ldStVx x => getV s x
  | _ => s.st

theorem dtExecuted_of_ne {i : Instr} (h : ∀ x, i ≠ .ldDtVx x) (s : State) :
    dtExecuted i s = s.dt := by
  cases i with
  | ldDtVx x => exact absurd rfl (h x)
  | _ => rfl

theorem stExecuted_of_ne {i : Instr} (h : ∀ x, i ≠ .ldStVx x) (s : State) :
    stExecuted i s = s.st := by
  cases i with
  | ldStVx x => exact absurd rfl (h x)
  | _ => rfl

/-- The timers of `t` are those of `s`, and no unknown opcode is reported that was not before. -/
def KeepsTimersAndReport (s t : State) : Prop :=
  t.dt = s.dt ∧ t.st = s.st ∧ (s.unk = none → t.unk = none)

theorem raise_keepsTimersAndReport (s : State) (c : FaultCause) (info : Nat) :
    KeepsTimersAndReport s (raise s c info) := ⟨rfl, rfl, fun _ => rfl⟩

theorem withBlock_keepsTimersAndReport {s : State} {f : State → State} (len : Nat)
    (hf : KeepsTimersAndReport s (f s)) : KeepsTimersAndReport s (withBlock s len f) := by
  obtain ⟨-, h⟩ | ⟨-, h⟩ := withBlock_cases s len f
  · exact h ▸ hf
  · exact h ▸ raise_keepsTimersAndReport s _ _

theorem callTo_keepsTimersAndReport (s : State) (w : Word) :
    KeepsTimersAndReport s (callTo s w) := by
  obtain ⟨_, h⟩ | ⟨-, h⟩ := callTo_cases s w
  · exact h ▸ ⟨rfl, rfl, id⟩
  · exact h ▸ raise_keepsTimersAndReport s _ _

theorem returnFromCall_keepsTimersAndReport (s : State) :
    KeepsTimersAndReport s (returnFromCall s) := by
  obtain ⟨_, h⟩ | ⟨-, h⟩ := returnFromCall_cases s
  · exact h ▸ ⟨rfl, rfl, id⟩
  · exact h ▸ raise_keepsTimersAndReport s _ _

theorem execLdVxK_keepsTimersAndReport (x : VReg) (s : State) :
    ∃ t, execLdVxK x s = .next t ∧ KeepsTimersAndReport s t := by
  rw [execLdVxK]
  cases scanKeys s with
  | some k => exact ⟨_, rfl, rfl, rfl, id⟩
  | none => exact ⟨s, rfl, rfl, rfl, id⟩

/-- No instruction but the two timer loads writes a timer, and none reports an unknown opcode
(R36, R172). -/
theorem exec_timers_and_report (i : Instr) (s : State) :
    ∃ t, exec i s = .next t ∧ t.dt = dtExecuted i s ∧ t.st = stExecuted i s ∧
      (s.unk = none → t.unk = none) := by
  cases i with
  | ret => exact ⟨_, rfl, returnFromCall_keepsTimersAndReport s⟩
  | call nnn => exact ⟨_, rfl, callTo_keepsTimersAndReport s _⟩
  | drw | ldBVx | ldMemVx | ldVxMem =>
    exact ⟨_, rfl, withBlock_keepsTimersAndReport _ ⟨rfl, rfl, id⟩⟩
  | ldVxK x => exact execLdVxK_keepsTimersAndReport x s
  | _ => exact ⟨_, rfl, rfl, rfl, id⟩

/-- The execute phase of a step, which runs on cleared outputs. -/
theorem timers_and_report_of_exec {i : Instr} {s u : State}
    (h : exec i (clearOutputs s) = .next u) :
    u.dt = dtExecuted i s ∧ u.st = stExecuted i s ∧ u.unk = none := by
  obtain ⟨t, ht, hdt, hst, hunk⟩ := exec_timers_and_report i (clearOutputs s)
  obtain rfl := Host.Outcome.next.inj (ht.symm.trans h)
  exact ⟨hdt, hst, hunk rfl⟩

end Sys2Proof.Machine
end

section

open Sys2Proof Sys2Proof.Machine Sys2Proof.Claims

/-- Settles O20: of the three ends of a step of a running core, the two that latch a fault leave all
else as it was; the timer phase is reached only with no fault latched. -/
theorem fatalFaultIsPrecise : Obligations.FatalFaultIsPrecise := by
  intro s t hstep
  refine ⟨fun hhalted => ?_, fun hrun f hf => ?_⟩
  · exact Host.Outcome.next.inj (hstep.symm.trans (step_of_halted hhalted))
  · suffices h : t = { s with fault := some f, tone := false, unk := none } from
      ⟨h, fun _ => h ▸ rfl⟩
    obtain ⟨-, rfl⟩ | ⟨-, -, rfl⟩ | ⟨i, u, -, -, ⟨hu, rfl⟩ | ⟨g, rfl⟩⟩ :=
      step_running_cases hrun hstep
    · exact hf ▸ rfl
    · exact nomatch hrun.symm.trans hf
    · exact nomatch hu.symm.trans hf
    · exact hf ▸ rfl

/-- Settles O15: an unknown opcode ends in the tick of the reported and skipped state; any other
step of a running core faults, which leaves `UNK` 0, or ticks an executed state, which has `UNK` 0. -/
theorem unknownOpcodeIsReportedAndSkipped : Obligations.UnknownOpcodeIsReportedAndSkipped := by
  refine ⟨fun s hrun hpc hunknown => ?_, fun s t hrun hstep hother => ?_⟩
  · obtain ⟨-, -, hstep, -⟩ := stepFollowsTheCycle s
    exact ⟨_, hstep hrun hpc hunknown, rfl, fun _ => rfl, rfl, decide_eq_true_iff, rfl, rfl⟩
  · obtain ⟨-, rfl⟩ | ⟨hpc, hunknown, -⟩ | ⟨i, u, -, hexec, ⟨-, rfl⟩ | ⟨f, rfl⟩⟩ :=
      step_running_cases hrun hstep
    · rfl
    · obtain ⟨i, hi⟩ := hother.resolve_left (Nat.not_lt.2 hpc)
      exact absurd hi (hunknown i)
    · obtain ⟨-, -, hunk⟩ := timers_and_report_of_exec hexec
      exact hunk
    · rfl

/-- Settles O17: a step without a tick is a halted one or a precise fault; any other ticks the
timers its execute phase left, which are those before the step unless the instruction loaded one. -/
theorem timersTickOncePerStep : Obligations.TimersTickOncePerStep := by
  intro s t hstep
  obtain ⟨hhalted, hprecise⟩ := fatalFaultIsPrecise s t hstep
  refine ⟨fun hnotick => ?_, fun hrun hok => ?_⟩
  · by_cases hrun : s.fault = none
    · obtain ⟨f, hf⟩ := Option.ne_none_iff_exists'.1 (hnotick.resolve_left (not_not.2 hrun))
      obtain ⟨rfl, -⟩ := hprecise hrun f hf
      exact ⟨rfl, rfl⟩
    · obtain rfl := hhalted hrun
      exact ⟨rfl, rfl⟩
  · obtain ⟨-, rfl⟩ | ⟨-, hunknown, rfl⟩ | ⟨i, u, hi, hexec, ⟨-, rfl⟩ | ⟨f, rfl⟩⟩ :=
      step_running_cases hrun hstep
    · exact nomatch hok
    · exact ⟨fun _ => rfl, fun x hx => absurd hx (hunknown _),
        fun _ => ⟨rfl, decide_eq_true_iff⟩, fun x hx => absurd hx (hunknown _)⟩
    · obtain ⟨hdt, hst, -⟩ := timers_and_report_of_exec hexec
      have hticked {b : Byte} (hb : stExecuted i s = b) :
          (Ticked u).st = ticked b ∧ ((Ticked u).tone = true ↔ b = 1) :=
        hb ▸ hst ▸ ⟨rfl, decide_eq_true_iff⟩
      refine ⟨fun hno => ?_, fun x hx => ?_, fun hno => ?_, fun x hx => ?_⟩
      · exact congrArg ticked (hdt.trans (dtExecuted_of_ne (fun x hx => hno x (hx ▸ hi)) s))
      · obtain rfl := decodes_unique hi hx
        exact congrArg ticked hdt
      · exact hticked (stExecuted_of_ne (fun x hx => hno x (hx ▸ hi)) s)
      · obtain rfl := decodes_unique hi hx
        exact hticked rfl
    · exact nomatch hok

end

section
/-!
Encoder and decoder are inverse to each other (R80 to R89): each instruction's word decodes to it,
and a word that decodes is put together again from the class, the selector and the fields the
decoder read.
-/

namespace Sys2Proof.Claims

/-! ### From the instruction to its word and back -/

/-- The converse of `decodes_of_decode_wordX`. -/
theorem decode_wordX_of_decodes {c sel : Nat} {x : VReg} {i : Instr}
    (h : Decodes (c * 0x1000 + sel + x.val * 0x100) i) : decode (wordX c x sel) = .ok i := by
  rwa [wordX, Nat.add_right_comm]

/-- The word of a two-register instruction of class 8 decodes to it. -/
theorem decode_wordXYN_of_class8Form {n : Nat} {form : VReg → VReg → Instr}
    (h : class8Form n = some form) (x y : VReg) :
    decode (wordXYN 0x8 x y n) = .ok (form x y) := by
  have hword : 0x8 * 0x1000 + x.val * 0x100 + y.val * 0x10 + n
      = 0x8000 + n + x.val * 0x100 + y.val * 0x10 := by omega
  rw [wordXYN, hword]
  exact decodes_class8 h x y

theorem decodes_rnd (x : VReg) (nn : Byte) :
    Decodes (0xC000 + x.val * 0x100 + nn.toNat) (.rnd x nn) := by
  change decode (wordXNN 0xC x nn) = _
  simp only [decode, slice_class_wordXNN, fieldX_wordXNN, fieldNN_wordXNN, Nat.reduceLT]

theorem decodes_ldVxDt (x : VReg) : Decodes (0xF007 + x.val * 0x100) (.ldVxDt x) :=
  decodes_classF (sel := 0x07) (by decide) (by simp [classFRow, opcodeRows]) x

theorem decodes_ldDtVx (x : VReg) : Decodes (0xF015 + x.val * 0x100) (.ldDtVx x) :=
  decodes_classF (sel := 0x15) (by decide) (by simp [classFRow, opcodeRows]) x

theorem decodes_ldStVx (x : VReg) : Decodes (0xF018 + x.val * 0x100) (.ldStVx x) :=
  decodes_classF (sel := 0x18) (by decide) (by simp [classFRow, opcodeRows]) x

/-- Along the formats: the decoder reads the class, the selector and the operands of a well-formed
instruction off its word. -/
theorem decode_encode {i : Instr} (h : i.WellFormed) : decode (encode i) = .ok i := by
  cases i with
  | cls => rfl
  | ret => rfl
  | jp nnn => exact decodes_jp ((jp_wf nnn).1 h)
  | call nnn => exact decodes_call ((call_wf nnn).1 h)
  | ldI nnn => exact decodes_ldI ((ldI_wf nnn).1 h)
  | jpV0 nnn => exact decodes_jpV0 ((jpV0_wf nnn).1 h)
  | seImm x nn => exact decodes_seImm x nn
  | sneImm x nn => exact decodes_sneImm x nn
  | ldImm x nn => exact decodes_ldImm x nn
  | addImm x nn => exact decodes_addImm x nn
  | rnd x nn => exact decodes_rnd x nn
  | seReg x y => exact decodes_seReg x y
  | sneReg x y => exact decodes_sneReg x y
  | drw x y n => exact decodes_drw x y ((drw_wf x y n).1 h)
  | ldReg x y | orReg x y | andReg x y | xorReg x y | addReg x y | subReg x y | shr x y
  | subnReg x y | shl x y => exact decode_wordXYN_of_class8Form rfl x y
  | skp x => exact decode_wordX_of_decodes (decodes_skp x)
  | sknp x => exact decode_wordX_of_decodes (decodes_sknp x)
  | ldVxDt x => exact decode_wordX_of_decodes (decodes_ldVxDt x)
  | ldVxK x => exact decode_wordX_of_decodes (decodes_ldVxK x)
  | ldDtVx x => exact decode_wordX_of_decodes (decodes_ldDtVx x)
  | ldStVx x => exact decode_wordX_of_decodes (decodes_ldStVx x)
  | addIVx x => exact decode_wordX_of_decodes (decodes_addIVx x)
  | ldFVx x => exact decode_wordX_of_decodes (decodes_ldFVx x)
  | ldBVx x => exact decode_wordX_of_decodes (decodes_ldBVx x)
  | ldMemVx x => exact decode_wordX_of_decodes (decodes_ldMemVx x)
  | ldVxMem x => exact decode_wordX_of_decodes (decodes_ldVxMem x)

end Sys2Proof.Claims

namespace Sys2Proof

/-! ### From the word to its instruction and back -/

section
variable {op : Word} {c : Nat}

theorem wordNNN_fields (hclass : slice op 12 4 = c) : wordNNN c (fieldNNN op) = op := by
  have := op.isLt
  rw [← BitVec.toNat_inj, wordNNN, BitVec.toNat_ofNat, fieldNNN_eq]
  simp only [slice] at hclass; omega

theorem wordXNN_fields (hclass : slice op 12 4 = c) :
    wordXNN c (fieldX op) (fieldNN op) = op := by
  have := op.isLt
  rw [← BitVec.toNat_inj, wordXNN, BitVec.toNat_ofNat, fieldX_val, fieldNN_toNat]
  simp only [slice] at hclass; omega

theorem wordXYN_fields {n : Nat} (hclass : slice op 12 4 = c) (hlow : slice op 0 4 = n) :
    wordXYN c (fieldX op) (fieldY op) n = op := by
  have := op.isLt
  rw [← BitVec.toNat_inj, wordXYN, BitVec.toNat_ofNat, fieldX_val, fieldY_val]
  simp only [slice] at hclass hlow; omega

theorem wordX_fields {sel : Nat} (hclass : slice op 12 4 = c) (hlow : slice op 0 8 = sel) :
    wordX c (fieldX op) sel = op := by
  have := op.isLt
  rw [← BitVec.toNat_inj, wordX, BitVec.toNat_ofNat, fieldX_val]
  simp only [slice] at hclass hlow; omega

/-- A word of class 0 is its low 12 bits. -/
theorem eq_ofNat_of_class_zero {n : Nat} (hclass : slice op 12 4 = 0) (hlow : slice op 0 12 = n) :
    BitVec.ofNat 16 n = op := by
  have := op.isLt
  rw [← BitVec.toNat_inj, BitVec.toNat_ofNat]
  simp only [slice] at hclass hlow; omega

variable {i : Instr}

theorem encode_of_decodeClass0 (hclass : slice op 12 4 = 0x0) (h : decodeClass0 op = .ok i) :
    i.WellFormed ∧ encode i = op := by
  unfold decodeClass0 at h
  split at h
  case h_3 => cases h
  all_goals
    cases h
    exact ⟨rfl, eq_ofNat_of_class_zero hclass ‹_›⟩

theorem encode_of_decodeClass5 (hclass : slice op 12 4 = 0x5) (h : decodeClass5 op = .ok i) :
    i.WellFormed ∧ encode i = op := by
  unfold decodeClass5 at h
  split at h
  case h_2 => cases h
  case h_1 hlow =>
    cases h
    exact ⟨rfl, wordXYN_fields hclass hlow⟩

theorem encode_of_decodeClass8 (hclass : slice op 12 4 = 0x8) (h : decodeClass8 op = .ok i) :
    i.WellFormed ∧ encode i = op := by
  unfold decodeClass8 at h
  split at h
  case h_10 => cases h
  all_goals
    cases h
    exact ⟨rfl, wordXYN_fields hclass ‹_›⟩

theorem encode_of_decodeClass9 (hclass : slice op 12 4 = 0x9) (h : decodeClass9 op = .ok i) :
    i.WellFormed ∧ encode i = op := by
  unfold decodeClass9 at h
  split at h
  case h_2 => cases h
  case h_1 hlow =>
    cases h
    exact ⟨rfl, wordXYN_fields hclass hlow⟩

theorem encode_of_decodeClassE (hclass : slice op 12 4 = 0xE) (h : decodeClassE op = .ok i) :
    i.WellFormed ∧ encode i = op := by
  unfold decodeClassE at h
  split at h
  case h_3 => cases h
  all_goals
    cases h
    exact ⟨rfl, wordX_fields hclass ‹_›⟩

theorem encode_of_decodeClassF (hclass : slice op 12 4 = 0xF) (h : decodeClassF op = .ok i) :
    i.WellFormed ∧ encode i = op := by
  unfold decodeClassF at h
  split at h
  case h_10 => cases h
  all_goals
    cases h
    exact ⟨rfl, wordX_fields hclass ‹_›⟩

/-- Along the classes of the decoder: what a class answers encodes to the word it was read from, and
its operands fit their fields. -/
theorem encode_of_decode (h : decode op = .ok i) : i.WellFormed ∧ encode i = op := by
  unfold decode at h
  split at h
  case h_17 => cases h
  case h_1 hclass => exact encode_of_decodeClass0 hclass h
  case h_6 hclass => exact encode_of_decodeClass5 hclass h
  case h_9 hclass => exact encode_of_decodeClass8 hclass h
  case h_10 hclass => exact encode_of_decodeClass9 hclass h
  case h_15 hclass => exact encode_of_decodeClassE hclass h
  case h_16 hclass => exact encode_of_decodeClassF hclass h
  all_goals cases h
  case h_14 hclass =>
    exact ⟨(drw_wf ..).2 (slice_lt op 0 4), wordXYN_fields hclass rfl⟩
  case h_2 hclass | h_3 hclass | h_11 hclass | h_12 hclass =>
    exact ⟨decide_eq_true (slice_lt op 0 12), wordNNN_fields hclass⟩
  all_goals exact ⟨rfl, wordXNN_fields ‹_›⟩

end

/-- A word the decoder rejects is rejected by name (R88, R89). -/
theorem eq_unknownOpcode_of_decode_error {op : Word} {e : DecodeError}
    (h : decode op = .error e) : e = .unknownOpcode op := by
  unfold decode decodeClass0 decodeClass5 decodeClass8 decodeClass9 decodeClassE decodeClassF at h
  repeat' split at h
  all_goals cases h
  all_goals rfl

end Sys2Proof
end

section

open Sys2Proof Sys2Proof.Machine Sys2Proof.Claims

/-- Settles O9: on the word this is `decode_encode`, and the two bytes compose to the word. -/
theorem decodeInvertsEncode : Obligations.DecodeInvertsEncode := by
  intro i hwf
  refine ⟨decode_encode hwf, fun rest => ?_⟩
  simp only [encodeBytes, List.cons_append, List.nil_append, decodeBytes,
    composeOpcode_highByte_lowByte, decode_encode hwf]

/-- Settles O10: the class, the selector and the fields the decoder read are all the bits of the
word. -/
theorem encodeInvertsDecode : Obligations.EncodeInvertsDecode :=
  fun _ _ h => encode_of_decode h

/-- Settles O12: the decoder computes on written-out words. -/
theorem writtenWordsDecode : Obligations.WrittenWordsDecode := by
  unfold Obligations.WrittenWordsDecode Decodes
  decide

end

section
/-!
Everything the execute phase can do (R36), said once: an instruction raises a fault, or changes only
the state of one of nine kinds; and what follows column by column.
-/

namespace Sys2Proof.Machine

open Sys2Proof.Claims

/-- `v` differs from the register file of `s` only in registers `i` may write. -/
def KeepsOtherV (i : Instr) (s : State) (v : Vector Byte 16) : Prop :=
  ∀ r : VReg, mayWriteV i r = false → v[r.val] = getV s r

/-- What executing `i` in `s` makes of the state, by the part of the state it writes. -/
inductive Effect (i : Instr) (s : State) : State → Prop where
  | fault (c : FaultCause) (info : Nat) : Effect i s (raise s c info)
  | registers (pc : Word) (v : Vector Byte 16) (hv : KeepsOtherV i s v) :
      Effect i s { s with pc := pc, v := v }
  | random (pc : Word) (v : Vector Byte 16) (hv : KeepsOtherV i s v) (hi : ∃ x nn, i = .rnd x nn) :
      Effect i s { s with pc := pc, v := v, draws := s.draws + 1 }
  | index (pc w : Word) (hi : (∃ nnn, i = .ldI nnn) ∨ (∃ x, i = .addIVx x) ∨ ∃ x, i = .ldFVx x) :
      Effect i s { s with pc := pc, i := w }
  | push (pc : Word) (sp : Fin 17) (hsp : s.sp.val < 16) (hi : ∃ nnn, i = .call nnn) :
      Effect i s { s with pc := pc, sp := sp, stack := s.stack.set s.sp.val s.pc hsp }
  | pop (pc : Word) (sp : Fin 17) (hi : i = .ret) : Effect i s { s with pc := pc, sp := sp }
  | delayTimer (pc : Word) (d : Byte) (hi : ∃ x, i = .ldDtVx x) :
      Effect i s { s with pc := pc, dt := d }
  | soundTimer (pc : Word) (d : Byte) (hi : ∃ x, i = .ldStVx x) :
      Effect i s { s with pc := pc, st := d }
  | store (pc : Word) (bs : List Byte) (hlen : bs.length = storeLengthOf i)
      (hin : s.i.toNat + bs.length ≤ Config.memSize) (hpos : 0 < storeLengthOf i) :
      Effect i s { storeBytes s s.i.toNat bs with pc := pc }
  | display (pc : Word) (v : Vector Byte 16) (fb : Framebuffer) (hv : KeepsOtherV i s v)
      (hi : i = .cls ∨ ∃ x y n, i = .drw x y n) :
      Effect i s { s with pc := pc, v := v, fb := fb, dirty := true }

/-! ### Register files that keep the registers not written -/

section
variable {i : Instr} {s : State} {x : VReg}

theorem keepsOtherV_self : KeepsOtherV i s s.v := fun _ _ => rfl

theorem keepsOtherV_set (b : Byte) (h : ∀ r, mayWriteV i r = false → r ≠ x) :
    KeepsOtherV i s (s.v.set x.val b) := fun r hr =>
  (getV_setV s x r b).trans (if_neg (h r hr))

theorem keepsOtherV_set_set {y : VReg} (a b : Byte)
    (h : ∀ r, mayWriteV i r = false → r ≠ x ∧ r ≠ y) :
    KeepsOtherV i s ((s.v.set x.val a).set y.val b) := fun r hr => by
  obtain ⟨hx, hy⟩ := h r hr
  have hset : getV (setV (setV s x a) y b) r = getV s r := by
    rw [getV_setV, if_neg hy, getV_setV, if_neg hx]
  exact hset

end

/-! ### The effect of every instruction -/

theorem ne_of_beq_false {r x : VReg} (h : (r == x) = false) : r ≠ x := by simpa using h

theorem ne_ne_of_beq_false {r x y : VReg} (h : (r == x || r == y) = false) : r ≠ x ∧ r ≠ y := by
  simpa using h

theorem effect_withBlock {i : Instr} {s : State} {len : Nat} {f : State → State}
    (hf : len = 0 ∨ s.i.toNat + len ≤ 0x1000 → Effect i s (f s)) :
    Effect i s (withBlock s len f) := by
  obtain ⟨hin, h⟩ | ⟨-, h⟩ := withBlock_cases s len f
  · exact h ▸ hf hin
  · exact h ▸ .fault _ _

theorem effect_callTo (s : State) (nnn : Nat) :
    Effect (.call nnn) s (callTo s (addressWord nnn)) := by
  obtain ⟨hsp, h⟩ | ⟨-, h⟩ := callTo_cases s (addressWord nnn)
  · exact h ▸ .push _ _ hsp ⟨nnn, rfl⟩
  · exact h ▸ .fault _ _

theorem effect_returnFromCall (s : State) : Effect .ret s (returnFromCall s) := by
  obtain ⟨_, h⟩ | ⟨-, h⟩ := returnFromCall_cases s
  · exact h ▸ .pop _ _ rfl
  · exact h ▸ .fault _ _

theorem effect_loadRegisterBlock (s : State) (x : VReg) :
    Effect (.ldVxMem x) s (next2 (loadRegisterBlock s x)) := by
  obtain ⟨v, hv⟩ : ∃ v, loadRegisterBlock s x = { s with v := v } := ⟨_, rfl⟩
  have hread := getV_loadRegisterBlock s x
  rw [hv] at hread ⊢
  exact .registers _ v fun r hr => (hread r).trans (if_neg (of_decide_eq_false hr))

theorem exec_ldVxK_effect (x : VReg) (s : State) :
    ∃ t, exec (.ldVxK x) s = .next t ∧ Effect (.ldVxK x) s t := by
  rw [exec, execLdVxK]
  cases scanKeys s with
  | some k =>
    exact ⟨_, rfl, .registers _ _ (keepsOtherV_set (keyByte k) fun _ => ne_of_beq_false)⟩
  | none => exact ⟨s, rfl, .registers _ _ keepsOtherV_self⟩

/-- Every instruction answers a next state that is one of its effects. -/
theorem exec_effect (i : Instr) (s : State) : ∃ t, exec i s = .next t ∧ Effect i s t := by
  cases i with
  | ret => exact ⟨_, rfl, effect_returnFromCall s⟩
  | call nnn => exact ⟨_, rfl, effect_callTo s nnn⟩
  | cls => exact ⟨_, rfl, .display _ _ _ keepsOtherV_self (.inl rfl)⟩
  | drw x y n =>
    exact ⟨_, rfl, effect_withBlock fun _ => .display _ _ _
      (keepsOtherV_set _ fun _ => ne_of_beq_false) (.inr ⟨x, y, n, rfl⟩)⟩
  | ldBVx x =>
    exact ⟨_, rfl, effect_withBlock fun hin =>
      .store _ _ rfl (hin.resolve_left (by decide)) (Nat.succ_pos 2)⟩
  | ldMemVx x =>
    refine ⟨_, rfl, effect_withBlock fun hin => .store _ _ (registerBlock_length s x) ?_
      x.val.succ_pos⟩
    rw [registerBlock_length]
    exact hin.resolve_left x.val.succ_ne_zero
  | ldVxMem x => exact ⟨_, rfl, effect_withBlock fun _ => effect_loadRegisterBlock s x⟩
  | ldVxK x => exact exec_ldVxK_effect x s
  | rnd x nn =>
    exact ⟨_, rfl, .random _ _ (keepsOtherV_set _ fun _ => ne_of_beq_false) ⟨x, nn, rfl⟩⟩
  | ldI nnn => exact ⟨_, rfl, .index _ _ (.inl ⟨nnn, rfl⟩)⟩
  | addIVx x => exact ⟨_, rfl, .index _ _ (.inr (.inl ⟨x, rfl⟩))⟩
  | ldFVx x => exact ⟨_, rfl, .index _ _ (.inr (.inr ⟨x, rfl⟩))⟩
  | ldDtVx x => exact ⟨_, rfl, .delayTimer _ _ ⟨x, rfl⟩⟩
  | ldStVx x => exact ⟨_, rfl, .soundTimer _ _ ⟨x, rfl⟩⟩
  | jp | jpV0 | seImm | sneImm | seReg | sneReg | skp | sknp =>
    exact ⟨_, rfl, .registers _ _ keepsOtherV_self⟩
  | ldImm | addImm | ldReg | orReg | andReg | xorReg | ldVxDt =>
    exact ⟨_, rfl, .registers _ _ (keepsOtherV_set _ fun _ => ne_of_beq_false)⟩
  | addReg =>
    exact ⟨_, rfl, .registers _ _ (keepsOtherV_set_set _ _ fun _ => ne_ne_of_beq_false)⟩
  | subReg | shr | subnReg | shl =>
    exact ⟨_, rfl, .registers _ _
      (keepsOtherV_set_set _ _ fun _ hr => (ne_ne_of_beq_false hr).symm)⟩

/-- The effect of an answer. -/
theorem effect_of_exec {i : Instr} {s t : State} (h : exec i s = .next t) : Effect i s t := by
  obtain ⟨u, hu, heff⟩ := exec_effect i s
  obtain rfl := Host.Outcome.next.inj (hu.symm.trans h)
  exact heff

/-! ### The columns of the access matrix -/

namespace Effect

variable {i : Instr} {s t : State} (h : Effect i s t)
include h

theorem keys : t.keys = s.keys := by cases h <;> rfl

theorem font : t.font = s.font := by cases h <;> rfl

theorem v (r : VReg) (hr : mayWriteV i r = false) : getV t r = getV s r := by
  cases h with
  | registers _ _ hv | random _ _ hv | display _ _ _ hv => exact hv r hr
  | _ => rfl

theorem i_changed (hne : t.i ≠ s.i) :
    (∃ nnn, i = .ldI nnn) ∨ (∃ x, i = .addIVx x) ∨ ∃ x, i = .ldFVx x := by
  cases h with
  | index _ _ hi => exact hi
  | _ => exact absurd rfl hne

theorem sameMemory (hlen : storeLengthOf i = 0) : SameMemory s t := by
  cases h with
  | store _ _ _ _ hpos => exact absurd hlen hpos.ne'
  | _ => exact fun _ => rfl

theorem memWf (hs : MemWf s) : MemWf t := by
  cases h with
  | store _ bs _ hin => exact storeBytes_memWf bs hs hin
  | _ => exact hs

theorem byteAt_of_outside (hs : MemWf s) (a : Nat)
    (ha : ∀ k, k < storeLengthOf i → a ≠ effectiveAddress s k) : byteAt t a = byteAt s a := by
  cases h with
  | store _ bs hlen hin =>
    refine (byteAt_storeBytes bs hs hin a).trans (if_neg fun hblock => ?_)
    have hne := ha (a - s.i.toNat) (by omega)
    rw [effectiveAddress_eq] at hne
    omega
  | _ => rfl

theorem stack (k : Fin 16) :
    t.stack[k.val] = s.stack[k.val] ∨
      (∃ nnn, i = .call nnn) ∧ k.val = s.sp.val ∧ t.stack[k.val] = s.pc := by
  cases h with
  | push _ _ hsp hi =>
    by_cases hk : s.sp.val = k.val
    · exact .inr ⟨hi, hk.symm, by simp only [Vector.getElem_set, hk, if_true]⟩
    · exact .inl (by simp only [Vector.getElem_set, hk, if_false])
  | _ => exact .inl rfl

theorem sp_changed (hne : t.sp ≠ s.sp) : (∃ nnn, i = .call nnn) ∨ i = .ret := by
  cases h with
  | push _ _ _ hi => exact .inl hi
  | pop _ _ hi => exact .inr hi
  | _ => exact absurd rfl hne

theorem dt_changed (hne : t.dt ≠ s.dt) : ∃ x, i = .ldDtVx x := by
  cases h with
  | delayTimer _ _ hi => exact hi
  | _ => exact absurd rfl hne

theorem st_changed (hne : t.st ≠ s.st) : ∃ x, i = .ldStVx x := by
  cases h with
  | soundTimer _ _ hi => exact hi
  | _ => exact absurd rfl hne

theorem display_changed (hne : t.fb ≠ s.fb ∨ t.dirty ≠ s.dirty) :
    i = .cls ∨ ∃ x y n, i = .drw x y n := by
  cases h with
  | display _ _ _ _ hi => exact hi
  | _ => exact hne.elim (absurd rfl) (absurd rfl)

theorem dirty (hs : s.dirty = true) : t.dirty = true := by
  cases h with
  | display => rfl
  | _ => exact hs

theorem draws_changed (hne : t.draws ≠ s.draws) : ∃ x nn, i = .rnd x nn := by
  cases h with
  | random _ _ _ hi => exact hi
  | _ => exact absurd rfl hne

end Effect

end Sys2Proof.Machine
end

section

open Sys2Proof Sys2Proof.Machine Sys2Proof.Claims

/-- Settles O29: each clause is a column of the effect of the instruction. -/
theorem instructionsWriteOnlyTheirOwnState : Obligations.InstructionsWriteOnlyTheirOwnState := by
  intro i s t hexec
  have h : Effect i s t := effect_of_exec hexec
  refine ⟨h.v, h.i_changed, h.sameMemory, h.byteAt_of_outside, fun k hk => ?_, h.sp_changed,
    h.dt_changed, h.st_changed, h.display_changed, h.keys, h.font, h.draws_changed⟩
  exact (h.stack k).resolve_right fun ⟨hcall, hsp, _⟩ => hk hcall hsp

end

section
/-!
The latch and `PC` after the execute phase (R23, R174): what each instruction faults for, and where
each goes on.
-/

namespace Sys2Proof.Machine

open Sys2Proof.Claims

/-! ### The latch -/

/-- A block operation faults exactly for a block with an address out of range, and with the
information of R170. -/
theorem fault_withBlock {s : State} {len : Nat} {f : State → State} {p : Prop} [Decidable p]
    (hf : (f s).fault = none) (hp : p ↔ 0 < len ∧ 0x1000 < s.i.toNat + len) :
    (withBlock s len f).fault =
      if p then some ⟨.dataOutOfRange, BitVec.ofNat 17 (max s.i.toNat 0x1000)⟩ else none := by
  obtain ⟨hin, h⟩ | ⟨hout, h⟩ := withBlock_cases s len f
  · rw [h, hf, if_neg (by rw [hp]; omega)]
  · rw [h, if_pos (hp.2 hout)]; rfl

theorem fault_callTo {s : State} (hrun : s.fault = none) (nnn : Nat) :
    (callTo s (addressWord nnn)).fault = ownFault (.call nnn) s := by
  obtain ⟨hsp, h⟩ | ⟨hsp, h⟩ := callTo_cases s (addressWord nnn)
  · rw [h, ownFault, if_neg hsp.ne]; exact hrun
  · rw [h, ownFault, if_pos hsp]; rfl

theorem fault_returnFromCall {s : State} (hrun : s.fault = none) :
    (returnFromCall s).fault = ownFault .ret s := by
  obtain ⟨hsp, h⟩ | ⟨hsp, h⟩ := returnFromCall_cases s
  · rw [h, ownFault, if_neg hsp.ne']; exact hrun
  · rw [h, ownFault, if_pos hsp]; rfl

/-- Each instruction latches its own fault, under its own condition (R174). -/
theorem exec_fault (i : Instr) {s : State} (hrun : s.fault = none) :
    ∃ t, exec i s = .next t ∧ t.fault = ownFault i s := by
  cases i with
  | ret => exact ⟨_, rfl, fault_returnFromCall hrun⟩
  | call nnn => exact ⟨_, rfl, fault_callTo hrun nnn⟩
  | drw => exact ⟨_, rfl, fault_withBlock hrun Iff.rfl⟩
  | ldBVx => exact ⟨_, rfl, fault_withBlock hrun (by omega)⟩
  | ldMemVx => exact ⟨_, rfl, fault_withBlock hrun (by rw [blockLength]; omega)⟩
  | ldVxMem x =>
    refine ⟨_, rfl, fault_withBlock ?_ (by rw [blockLength]; omega)⟩
    rwa [next2_eq, advance_fault, loadRegisterBlock_fault]
  | ldVxK x =>
    obtain ⟨t, ht, hfault⟩ := execLdVxK_keepsFault x s
    exact ⟨t, ht, hfault.trans hrun⟩
  | _ => exact ⟨_, rfl, hrun⟩

/-- Every own fault shows its cause in the state it is raised in (R170): a block has at most 16
bytes. -/
theorem ownFault_shows {i : Instr} {s : State} {f : FaultReport} (hwf : i.WellFormed)
    (h : ownFault i s = some f) : FaultShowsItsCause s f := by
  have hi : s.i.toNat < 2 ^ 16 := s.i.isLt
  have hinfo : (BitVec.ofNat 17 (max s.i.toNat 0x1000)).toNat = max s.i.toNat 0x1000 := by
    rw [BitVec.toNat_ofNat]; omega
  cases i with
  | call =>
    obtain ⟨hsp, ⟨⟩⟩ := Option.ite_none_right_eq_some.1 h
    exact ⟨hsp, rfl⟩
  | ret =>
    obtain ⟨hsp, ⟨⟩⟩ := Option.ite_none_right_eq_some.1 h
    exact ⟨hsp, rfl⟩
  | drw x y n =>
    obtain ⟨⟨-, hout⟩, ⟨⟩⟩ := Option.ite_none_right_eq_some.1 h
    have hn : n < 16 := (drw_wf x y n).1 hwf
    exact ⟨by omega, hinfo⟩
  | ldBVx =>
    obtain ⟨hout, ⟨⟩⟩ := Option.ite_none_right_eq_some.1 h
    exact ⟨by omega, hinfo⟩
  | ldMemVx x | ldVxMem x =>
    obtain ⟨hout, ⟨⟩⟩ := Option.ite_none_right_eq_some.1 h
    have hx : x.val < 16 := x.isLt
    exact ⟨by omega, hinfo⟩
  | _ => exact nomatch h

/-! ### `PC` -/

/-- A taken block operation goes on where its effect goes on. -/
theorem pc_withBlock {s : State} {len : Nat} {f : State → State} (hf : (f s).pc = s.pc + 2)
    (hok : (withBlock s len f).fault = none) : (withBlock s len f).pc = s.pc + 2 := by
  obtain ⟨-, h⟩ | ⟨-, h⟩ := withBlock_cases s len f
  · exact h ▸ hf
  · exact nomatch h ▸ hok

theorem pc_callTo {s : State} {w : Word} (hok : (callTo s w).fault = none) :
    (callTo s w).pc = w := by
  obtain ⟨_, h⟩ | ⟨-, h⟩ := callTo_cases s w
  · exact h ▸ rfl
  · exact nomatch h ▸ hok

theorem pc_returnFromCall {s : State} (hok : (returnFromCall s).fault = none) :
    (returnFromCall s).pc = pcAfter .ret s := by
  obtain ⟨hsp, h⟩ | ⟨-, h⟩ := returnFromCall_cases s
  · have hlt : s.sp.val - 1 < s.stack.toList.length := by rw [Vector.length_toList]; omega
    rw [h, pcAfter, List.getD_eq_getElem _ _ hlt, Vector.getElem_toList]
  · exact nomatch h ▸ hok

theorem pc_skipIf {s : State} {c : Bool} {p : Prop} [Decidable p] (hc : c = true ↔ p) :
    (skipIf s c).pc = if p then s.pc + 4 else s.pc + 2 := by
  simp only [skipIf_eq, advance_pc, ← hc]
  split <;> rfl

theorem jumpV0Target_eq_ofNat (s : State) (nnn : Nat) :
    jumpV0Target s nnn = BitVec.ofNat 16 (nnn + (getV s 0).toNat) := by
  rw [jumpV0Target, addressWord, BitVec.ofNat_add, Byte.toWord, BitVec.ofNat_toNat]

/-- The key the skips test, read off the list of levels (R160). -/
theorem keyDown_keyIndex (s : State) (a : Byte) :
    keyDown s (keyIndex a) = s.keys.toList.getD (a.toNat % 16) false := by
  have hlt : a.toNat % 16 < s.keys.toList.length := by rw [Vector.length_toList]; omega
  rw [List.getD_eq_getElem _ _ hlt, Vector.getElem_toList]
  simp only [keyDown, keyIndex_val]

theorem exec_ldVxK_pc (x : VReg) (s : State) :
    ∃ t, exec (.ldVxK x) s = .next t ∧ t.pc = pcAfter (.ldVxK x) s := by
  rw [exec, execLdVxK, pcAfter]
  cases hscan : scanKeys s with
  | some k =>
    obtain ⟨hk, -⟩ := (scanKeys_eq_some_iff s k).1 hscan
    exact ⟨_, rfl, (if_pos ⟨k, hk⟩).symm⟩
  | none =>
    have hnone := (scanKeys_eq_none_iff s).1 hscan
    exact ⟨s, rfl, (if_neg fun ⟨k, hk⟩ => Bool.false_ne_true ((hnone k).symm.trans hk)).symm⟩

/-- Each instruction that raises no fault goes on where the list of R23 says. -/
theorem exec_pc (i : Instr) (s : State) :
    ∃ t, exec i s = .next t ∧ (t.fault = none → t.pc = pcAfter i s) := by
  cases i with
  | ret => exact ⟨_, rfl, pc_returnFromCall⟩
  | call nnn => exact ⟨_, rfl, pc_callTo⟩
  | drw | ldBVx | ldMemVx => exact ⟨_, rfl, pc_withBlock rfl⟩
  | ldVxMem x =>
    refine ⟨_, rfl, pc_withBlock ?_⟩
    rw [next2_eq, advance_pc, loadRegisterBlock_pc]; rfl
  | jpV0 nnn => exact ⟨_, rfl, fun _ => jumpV0Target_eq_ofNat s nnn⟩
  | seImm | seReg => exact ⟨_, rfl, fun _ => pc_skipIf beq_iff_eq⟩
  | sneImm | sneReg => exact ⟨_, rfl, fun _ => pc_skipIf bne_iff_ne⟩
  | skp x => exact ⟨_, rfl, fun _ => pc_skipIf (by rw [keyDown_keyIndex])⟩
  | sknp x => exact ⟨_, rfl, fun _ => pc_skipIf (by rw [keyDown_keyIndex, Bool.not_eq_true'])⟩
  | ldVxK x =>
    obtain ⟨t, ht, hpc⟩ := exec_ldVxK_pc x s
    exact ⟨t, ht, fun _ => hpc⟩
  | _ => exact ⟨_, rfl, fun _ => rfl⟩

/-- Both clauses of R23 for an answer: the list where no fault was raised, `PC` unchanged where one
was. -/
theorem pc_of_exec {i : Instr} {s t : State} (hrun : s.fault = none) (h : exec i s = .next t) :
    (t.fault = none → t.pc = pcAfter i s) ∧ (t.fault ≠ none → t.pc = s.pc) := by
  obtain ⟨u, hu, hpc⟩ := exec_pc i s
  obtain ⟨w, hw, hlatch⟩ := exec_next i s
  obtain rfl := Host.Outcome.next.inj (hu.symm.trans h)
  obtain rfl := Host.Outcome.next.inj (hw.symm.trans h)
  refine ⟨hpc, fun hfault => ?_⟩
  obtain hkept | ⟨c, info, rfl⟩ := hlatch
  · exact absurd (hkept.trans hrun) hfault
  · rfl

end Sys2Proof.Machine
end

section

open Sys2Proof Sys2Proof.Machine Sys2Proof.Claims

/-- Settles O21: instruction by instruction, the latch is empty or holds the fault of the condition
of R174. -/
theorem eachInstructionRaisesExactlyItsOwnFault :
    Obligations.EachInstructionRaisesExactlyItsOwnFault :=
  fun i _ hrun => exec_fault i hrun

/-- Settles O28: an instruction follows the list of R23 or faults with `PC` unchanged, and an
unknown opcode is skipped. -/
theorem pcFollowsTheTable : Obligations.PcFollowsTheTable := by
  refine ⟨fun i s t hrun hexec => pc_of_exec hrun hexec, fun s t hrun hpc hunknown hstep => ?_⟩
  obtain ⟨-, -, hskip, -⟩ := stepFollowsTheCycle s
  rw [hskip hrun hpc hunknown] at hstep
  cases hstep
  rfl

end

section
/-!
What every step keeps (R30 to R32, R173), and the invariant of the machine (R22, R23, R25, R170,
R184): it holds after reset, and every step and every move of the host keeps it.
-/

namespace Sys2Proof.Machine

open Sys2Proof.Claims

/-! ### Steps and runs -/

/-- Every step answers a next state. -/
theorem step_next (s : State) : ∃ t, step s = .next t := by
  obtain ⟨-, h⟩ | ⟨-, -, h⟩ | ⟨_, _, -, -, -, h⟩ | ⟨op, i, -, -, -, h⟩ := step_cases s
  · exact ⟨_, h⟩
  · exact ⟨_, h⟩
  · exact ⟨_, h⟩
  · obtain ⟨u, hu, -⟩ := exec_next i (clearOutputs s)
    exact ⟨finishStep u, by rw [h, hu]; rfl⟩

/-- A property of the next state holds if it holds of the state itself, of the state with a fault
raised, of the skipped unknown opcode and of every executed state after its tick. -/
theorem step_induction {R : State → Prop} {s t : State} (hstep : step s = .next t) (hself : R s)
    (hfault : ∀ f, R { s with fault := some f, tone := false, unk := none })
    (hskip : ∀ pc unk, R (Ticked { s with pc := pc, unk := unk }))
    (hexec : ∀ i u, Effect i (clearOutputs s) u → R (Ticked u)) : R t := by
  by_cases hrun : s.fault = none
  · obtain ⟨-, rfl⟩ | ⟨-, -, rfl⟩ | ⟨i, u, -, hu, ⟨-, rfl⟩ | ⟨f, rfl⟩⟩ :=
      step_running_cases hrun hstep
    · exact hfault _
    · exact hskip _ _
    · exact hexec i u (effect_of_exec hu)
    · exact hfault f
  · obtain rfl := Host.Outcome.next.inj ((step_of_halted hrun).symm.trans hstep)
    exact hself

theorem font_of_step {s t : State} (h : step s = .next t) : t.font = s.font :=
  step_induction (R := fun t => t.font = s.font) h rfl (fun _ => rfl) (fun _ _ => rfl)
    fun _ _ heff => heff.font

theorem keys_of_step {s t : State} (h : step s = .next t) : t.keys = s.keys :=
  step_induction (R := fun t => t.keys = s.keys) h rfl (fun _ => rfl) (fun _ _ => rfl)
    fun _ _ heff => heff.keys

theorem dirty_of_step {s t : State} (h : step s = .next t) (hs : s.dirty = true) :
    t.dirty = true :=
  step_induction (R := fun t => t.dirty = true) h hs (fun _ => hs) (fun _ _ => hs)
    fun _ _ heff => heff.dirty hs

/-- A run is its first step and the rest. -/
theorem run_succ {s t : State} (h : step s = .next t) (n : Nat) :
    Sys2Proof.core.run (n + 1) s = Sys2Proof.core.run n t := by
  have hcore : Sys2Proof.core.step s = .next t := h
  simp only [Host.Core.run, hcore]

theorem run_of_halted {s : State} (h : s.fault ≠ none) (n : Nat) :
    Sys2Proof.core.run n s = .next s := by
  induction n with
  | zero => rfl
  | succ n ih => rw [run_succ (step_of_halted h), ih]

/-! ### Moves of the host -/

theorem hostMove_step_of_next {y : System} {t : State} (h : step y.core = .next t) :
    hostMove .step y = .next ⟨t, false⟩ := by
  rw [hostMove, stepPort, h]

theorem hostMove_step_inv {y z : System} (h : hostMove .step y = .next z) :
    ∃ t, step y.core = .next t ∧ z = ⟨t, false⟩ := by
  obtain ⟨t, ht⟩ := step_next y.core
  exact ⟨t, ht, Host.Outcome.next.inj (h.symm.trans (hostMove_step_of_next ht))⟩

theorem hostMove_load_of_open {y : System} (h : y.loadOpen = true) (rom : List Byte) :
    hostMove (.load rom) y = .next ⟨loadRom y.core rom, false⟩ := by
  rw [hostMove, loadPort, if_pos h]

theorem hostMove_load_of_closed {y : System} (h : y.loadOpen = false) (rom : List Byte) :
    hostMove (.load rom) y = .refused .loadNotAfterReset := by
  rw [hostMove, loadPort, if_neg (Bool.eq_false_iff.1 h)]

theorem hostMove_load_inv {y z : System} {rom : List Byte} (h : hostMove (.load rom) y = .next z) :
    y.loadOpen = true ∧ z = ⟨loadRom y.core rom, false⟩ := by
  cases hopen : y.loadOpen with
  | true => exact ⟨rfl, Host.Outcome.next.inj (h.symm.trans (hostMove_load_of_open hopen rom))⟩
  | false => exact nomatch h.symm.trans (hostMove_load_of_closed hopen rom)

/-- The two things a load can do (R203, R177). -/
theorem loadRom_cases (s : State) (rom : List Byte) :
    (rom.length ≤ 3584 ∧ loadRom s rom = storeBytes s 0x200 rom) ∨
    (3584 < rom.length ∧ loadRom s rom = Faulted s .romTooLarge 0) := by
  by_cases h : rom.length ≤ 3584
  · exact .inl ⟨h, if_pos h⟩
  · exact .inr ⟨Nat.lt_of_not_le h, if_neg h⟩

theorem font_loadRom (s : State) (rom : List Byte) : (loadRom s rom).font = s.font := by
  obtain ⟨-, h⟩ | ⟨-, h⟩ := loadRom_cases s rom
  · rw [h]; rfl
  · rw [h]; rfl

/-! ### The invariant -/

/-- Reset, whatever the count of `RND` bytes is, meets the invariant. -/
theorem machineInv_reset (font : FontRom) (draws : Nat) :
    MachineInv { State.resetWith font with draws := draws } where
  memory := reset_memory_wf font
  pc_bound := (by decide : (0x200 : Word).toNat ≤ 0x10FE)
  stack_bound k := by
    have hzero : (State.resetWith font).stack[k.val] = 0 := Vector.getElem_replicate k.isLt
    exact (congrArg BitVec.toNat hzero).trans_le (by decide)
  fault_shown := nofun
  tone_at_zero := nofun
  unk_unknown := nofun

/-- A fault that shows its cause may be latched where nothing else changes (R173). -/
theorem machineInv_faulted {s : State} {f : FaultReport} (h : MachineInv s)
    (hshows : FaultShowsItsCause s f) :
    MachineInv { s with fault := some f, tone := false, unk := none } where
  memory := h.memory
  pc_bound := h.pc_bound
  stack_bound := h.stack_bound
  fault_shown g hg := by
    obtain rfl := Option.some.inj hg
    exact ⟨hshows, rfl, rfl⟩
  tone_at_zero := nofun
  unk_unknown := nofun

/-- The tick that finds `ST = 1` leaves it at 0, so the timer phase sets up its part of the
invariant by itself (R184). -/
theorem machineInv_ticked {s : State} (hmem : MemWf s) (hpc : s.pc.toNat ≤ 0x10FE)
    (hstack : ∀ k : Fin 16, s.stack[k.val].toNat ≤ 0xFFE) (hrun : s.fault = none)
    (hunk : ∀ u, s.unk = some u → ∃ e, decode u.op = .error e) : MachineInv (Ticked s) where
  memory := hmem
  pc_bound := hpc
  stack_bound := hstack
  fault_shown f hf := nomatch hrun.symm.trans hf
  tone_at_zero htone := by
    have hst : s.st = 1 := of_decide_eq_true htone
    change ticked s.st = 0
    rw [hst]; rfl
  unk_unknown := hunk

/-- `PC` as an instruction leaves it is at most 0xFFF + 0xFF, the largest target of `JP V0, nnn`
(R23). -/
theorem pcAfter_le {i : Instr} {s : State} (hwf : i.WellFormed) (hpc : s.pc.toNat ≤ 0xFFE)
    (hstack : ∀ k : Fin 16, s.stack[k.val].toNat ≤ 0xFFE) : (pcAfter i s).toNat ≤ 0x10FE := by
  have hnext : (s.pc + 2).toNat ≤ 0x10FE := by bv_omega
  have hskip : (s.pc + 4).toNat ≤ 0x10FE := by bv_omega
  have hstay : s.pc.toNat ≤ 0x10FE := by omega
  cases i with
  | ret =>
    have hlt : s.sp.val - 1 < 16 := by omega
    have hpop : s.stack[s.sp.val - 1].toNat ≤ 0xFFE := hstack ⟨s.sp.val - 1, hlt⟩
    rw [pcAfter, List.getD_eq_getElem _ _ (by rwa [Vector.length_toList]), Vector.getElem_toList]
    bv_omega
  | jp nnn =>
    have hnnn : nnn < 4096 := (jp_wf nnn).1 hwf
    rw [pcAfter, BitVec.toNat_ofNat]; omega
  | call nnn =>
    have hnnn : nnn < 4096 := (call_wf nnn).1 hwf
    rw [pcAfter, BitVec.toNat_ofNat]; omega
  | jpV0 nnn =>
    have hnnn : nnn < 4096 := (jpV0_wf nnn).1 hwf
    have hv0 : (getV s 0).toNat < 2 ^ 8 := (getV s 0).isLt
    rw [pcAfter, BitVec.toNat_ofNat]; omega
  | seImm | sneImm | seReg | sneReg | skp | sknp =>
    rw [pcAfter]; split
    · exact hskip
    · exact hnext
  | ldVxK =>
    rw [pcAfter]; split
    · exact hnext
    · exact hstay
  | _ => exact hnext

/-- The state an instruction leaves meets the invariant after the tick of its step, or with its
fault latched. -/
theorem machineInv_of_exec {i : Instr} {s u : State} (h : MachineInv s) (hrun : s.fault = none)
    (hpc : s.pc.toNat ≤ 0xFFE) (hwf : i.WellFormed)
    (hexec : exec i (clearOutputs s) = .next u) : MachineInv (finishStep u) := by
  have heff : Effect i (clearOutputs s) u := effect_of_exec hexec
  obtain ⟨hnext, -⟩ := pc_of_exec (s := clearOutputs s) hrun hexec
  obtain ⟨-, -, hunk⟩ := timers_and_report_of_exec hexec
  obtain ⟨w, hw, hown⟩ := exec_fault i (s := clearOutputs s) hrun
  obtain rfl := Host.Outcome.next.inj (hw.symm.trans hexec)
  obtain ⟨v, hv, hlatch⟩ := exec_next i (clearOutputs s)
  obtain rfl := Host.Outcome.next.inj (hv.symm.trans hexec)
  rw [finishStep_eq_ite]
  split
  next hok =>
    refine machineInv_ticked (heff.memWf h.memory) ?_ (fun k => ?_) hok fun r hr => ?_
    · exact (congrArg BitVec.toNat (hnext hok)).trans_le (pcAfter_le hwf hpc h.stack_bound)
    · obtain hk | ⟨-, -, hk⟩ := heff.stack k
      · exact (congrArg BitVec.toNat hk).trans_le (h.stack_bound k)
      · exact (congrArg BitVec.toNat hk).trans_le hpc
    · exact nomatch hunk.symm.trans hr
  next hfault =>
    obtain hkept | ⟨c, info, rfl⟩ := hlatch
    · exact absurd (hkept.trans hrun) hfault
    · exact machineInv_faulted (s := s) h (ownFault_shows hwf hown.symm)

/-- The invariant looks at no field a key write or `DIRTY_ACK` changes. -/
theorem machineInv_keyPort {s : State} (h : MachineInv s) (k : Fin 16) (p : Bool) :
    MachineInv (keyPort s k p) :=
  ⟨h.memory, h.pc_bound, h.stack_bound, h.fault_shown, h.tone_at_zero, h.unk_unknown⟩

theorem machineInv_dirtyAckPort {s : State} (h : MachineInv s) : MachineInv (dirtyAckPort s) :=
  ⟨h.memory, h.pc_bound, h.stack_bound, h.fault_shown, h.tone_at_zero, h.unk_unknown⟩

theorem machineInv_loadRom {s : State} (h : MachineInv s) (rom : List Byte) :
    MachineInv (loadRom s rom) := by
  obtain ⟨hlen, hrom⟩ | ⟨-, hrom⟩ := loadRom_cases s rom
  · rw [hrom]
    have hmem : MemWf (storeBytes s 0x200 rom) :=
      storeBytes_memWf rom h.memory (by rw [Config.memSize]; omega)
    exact ⟨hmem, h.pc_bound, h.stack_bound, h.fault_shown, h.tone_at_zero, h.unk_unknown⟩
  · rw [hrom]
    exact machineInv_faulted h rfl

end Sys2Proof.Machine
end

section

open Sys2Proof Sys2Proof.Machine Sys2Proof.Claims

/-- Settles O25: along the four ends of a step. A fetch out of range shows its address, an unknown
opcode reports a word no row decodes, and an instruction keeps the invariant through its effect. -/
theorem stepKeepsTheMachineInvariant : Obligations.StepKeepsTheMachineInvariant := by
  intro s t hinv hstep
  obtain ⟨-, h⟩ | ⟨-, hfetch, h⟩ | ⟨op, e, hrun, hfetch, hdec, h⟩ |
    ⟨op, i, hrun, hfetch, hdec, h⟩ := step_cases s
  all_goals rw [h] at hstep
  · cases hstep
    exact hinv
  · cases hstep
    have hinfo : (BitVec.ofNat 17 s.pc.toNat).toNat = s.pc.toNat := by
      have := s.pc.isLt
      rw [BitVec.toNat_ofNat]; omega
    exact machineInv_faulted (s := s) hinv ⟨(fetchOpcode_eq_none_iff s).1 hfetch, hinfo⟩
  · cases hstep
    have hpc : s.pc.toNat ≤ 0xFFE := fetchOpcode_isSome hfetch
    have hnext : (s.pc + 2).toNat ≤ 0x10FE := by bv_omega
    exact machineInv_ticked hinv.memory hnext hinv.stack_bound hrun
      fun u hu => ⟨e, Option.some.inj hu ▸ hdec⟩
  · obtain ⟨u, hexec, -⟩ := exec_next i (clearOutputs s)
    rw [hexec] at hstep
    cases hstep
    obtain ⟨hwf, -⟩ := encode_of_decode hdec
    exact machineInv_of_exec hinv hrun (fetchOpcode_isSome hfetch) hwf hexec

/-- Settles O24: reset is the case of no consumed `RND` byte, and the CORE it leaves is fresh. -/
theorem resetMeetsTheMachineInvariant : Obligations.ResetMeetsTheMachineInvariant :=
  ⟨machineInv_reset defaultFontRom 0, fun font => ⟨machineInv_reset font 0, fun _ => rfl⟩⟩

/-- Settles O26: `LOAD` and `STEP` close `LOAD`'s one place, and key writes and `DIRTY_ACK` keep a
fresh CORE fresh. -/
theorem hostMovesKeepTheMachineInvariant : Obligations.HostMovesKeepTheMachineInvariant := by
  intro e y z hinv hmove
  cases e with
  | reset =>
    cases hmove
    exact ⟨machineInv_reset y.core.font y.core.draws, fun _ => rfl⟩
  | load rom =>
    obtain ⟨-, rfl⟩ := hostMove_load_inv hmove
    exact ⟨machineInv_loadRom hinv.core rom, nofun⟩
  | step =>
    obtain ⟨t, ht, rfl⟩ := hostMove_step_inv hmove
    exact ⟨stepKeepsTheMachineInvariant y.core t hinv.core ht, nofun⟩
  | key k p =>
    cases hmove
    exact ⟨machineInv_keyPort hinv.core k p,
      fun hopen => congrArg (keyPort · k p) (hinv.fresh hopen)⟩
  | dirtyAck =>
    cases hmove
    exact ⟨machineInv_dirtyAckPort hinv.core, fun hopen => congrArg dirtyAckPort (hinv.fresh hopen)⟩

/-- Settles O6: no end of a step writes `KEYS`, and only `CLS` and `DRW` write `DIRTY`, which they
set. -/
theorem stepLeavesKeysAndNeverClearsDirty : Obligations.StepLeavesKeysAndNeverClearsDirty :=
  fun _ _ h => ⟨keys_of_step h, dirty_of_step h⟩

/-- Settles O7: a step of a halted core is no step; of the host's moves `LOAD` may latch its own
fault over the old one, and none but `RESET` empties the latch. -/
theorem onlyResetLeavesTheHaltedState : Obligations.OnlyResetLeavesTheHaltedState := by
  refine ⟨fun n s h => run_of_halted h n, fun e y z hhalted hmove hne => ?_⟩
  cases e with
  | reset => exact absurd rfl hne
  | load rom =>
    obtain ⟨hopen, rfl⟩ := hostMove_load_inv hmove
    refine ⟨?_, fun hclosed => nomatch hopen.symm.trans hclosed⟩
    obtain ⟨-, h⟩ | ⟨-, h⟩ := loadRom_cases y.core rom
    · exact h ▸ hhalted
    · exact h ▸ nofun
  | step =>
    obtain ⟨t, ht, rfl⟩ := hostMove_step_inv hmove
    obtain rfl := Host.Outcome.next.inj ((step_of_halted hhalted).symm.trans ht)
    exact ⟨hhalted, fun _ => rfl⟩
  | key | dirtyAck =>
    cases hmove
    exact ⟨hhalted, fun _ => rfl⟩

/-- Settles O8: a step and every move of the host carry the field over. -/
theorem fontParameterNeverChanges : Obligations.FontParameterNeverChanges := by
  refine ⟨fun s t h => font_of_step h, fun e y z hmove => ?_⟩
  cases e with
  | load rom =>
    obtain ⟨-, rfl⟩ := hostMove_load_inv hmove
    exact font_loadRom y.core rom
  | step =>
    obtain ⟨t, ht, rfl⟩ := hostMove_step_inv hmove
    exact font_of_step ht
  | reset | key | dirtyAck =>
    cases hmove
    rfl

/-- Settles O2: the answer of `RESET` is a function of `FONT_ROM` and of the counter of `RND` bytes
only. -/
theorem resetWorksInEveryState : Obligations.ResetWorksInEveryState := by
  intro y
  refine ⟨_, rfl, rfl, rfl, rfl, fun y' z' hmove hfont hdraws => ?_⟩
  cases hmove
  rw [resetPort, resetPort, hfont, hdraws]

/-- Settles O3: a ROM that fits is a store at 0x200 inside the address space; a larger one only
latches its fault. -/
theorem loadCopiesTheRomOrFaults : Obligations.LoadCopiesTheRomOrFaults := by
  intro y rom hmem hopen
  have hmove := hostMove_load_of_open hopen rom
  obtain ⟨hlen, hrom⟩ | ⟨hlen, hrom⟩ := loadRom_cases y.core rom
  · have hin : 0x200 + rom.length ≤ Config.memSize := by rw [Config.memSize]; omega
    refine ⟨fun _ => ⟨_, hmove, ?_⟩, fun hbig => absurd hlen (Nat.not_le.2 hbig)⟩
    rw [hrom]
    exact ⟨rfl, storeBytes_memWf rom hmem hin, byteAt_storeBytes rom hmem hin⟩
  · exact ⟨fun hfits => absurd hfits (Nat.not_le.2 hlen), fun _ => ⟨_, hmove, hrom⟩⟩

/-- Settles O4: the flag is set by `RESET`, cleared by `LOAD` and `STEP`, and kept by the two other
moves. -/
theorem loadHasNoOtherMove : Obligations.LoadHasNoOtherMove := by
  have hload (y z rom) (h : hostMove (.load rom) y = .next z) : z.loadOpen = false := by
    obtain ⟨-, rfl⟩ := hostMove_load_inv h
    rfl
  have hstep (y z) (h : hostMove .step y = .next z) : z.loadOpen = false := by
    obtain ⟨t, -, rfl⟩ := hostMove_step_inv h
    rfl
  refine ⟨fun y rom h => hostMove_load_of_closed h rom, fun y z h => ?_, hload, hstep,
    fun e y z h hne hclosed => ?_, fun y k p => ⟨_, rfl, rfl⟩, fun y => ⟨_, rfl, rfl⟩⟩
  · cases h
    rfl
  · cases e with
    | reset => exact absurd rfl hne
    | load rom => exact hload y z rom h
    | step => exact hstep y z h
    | key | dirtyAck =>
      cases h
      exact hclosed

/-- Settles O5: a key write sets one element of `KEYS`, which a second write to the same element
overwrites. -/
theorem hostInputsChangeOnlyTheirOwnState : Obligations.HostInputsChangeOnlyTheirOwnState := by
  intro y k p q
  refine ⟨⟨_, rfl, rfl, fun j => ?_, ?_⟩, ⟨_, rfl, rfl⟩⟩
  · simp only [keyPort_keys, Vector.getElem_set, Fin.val_inj, eq_comm]
  · simp only [hostMove, keyPort, Vector.set_set]

/-- Settles O16: a word the decoder rejects is rejected by name, and every end of a step is a next
state. -/
theorem everyStepAnswersANextState : Obligations.EveryStepAnswersANextState := by
  refine ⟨fun op => ?_, step_next⟩
  cases h : decode op with
  | ok i => exact .inl ⟨i, rfl⟩
  | error e => exact .inr (congrArg Except.error (eq_unknownOpcode_of_decode_error h))

end

section
/-!
Canonical memories (log 8): the list is determined by what it reads as.
-/

namespace Sys2Proof.Machine

section
variable {font : FontRom} {c d : Host.Cell} {m m' : Memory}

theorem readByte_head : readByte font (c :: m) c.1 = c.2 := if_pos rfl

theorem readByte_of_ne_head {a : Nat} (h : c.1 ≠ a) :
    readByte font (c :: m) a = readByte font m a := if_neg h

/-- The head of a canonical memory is below its rest, which reads as reset there. -/
theorem readByte_tail_of_le_head (h : Memory.wf font (c :: m)) {a : Nat} (ha : a ≤ c.1) :
    readByte font m a = resetByte font a :=
  readByte_of_all_ne fun d hd => (ha.trans_lt (Memory.wf_head_lt h d hd)).ne'

theorem head_ne_resetByte (h : Memory.wf font (c :: m)) : c.2 ≠ resetByte font c.1 :=
  (h.2 c List.mem_cons_self).2

/-- The head of a canonical memory is its least address that does not read as reset. -/
theorem head_le_of_same_reads (hm : Memory.wf font (c :: m)) (hm' : Memory.wf font (d :: m'))
    (h : ∀ a, readByte font (c :: m) a = readByte font (d :: m') a) : d.1 ≤ c.1 := by
  by_contra hlt
  rw [Nat.not_le] at hlt
  have hc : c.2 = resetByte font c.1 := by
    rw [← readByte_head, h, readByte_of_ne_head hlt.ne', readByte_tail_of_le_head hm' hlt.le]
  exact head_ne_resetByte hm hc

/-- Two canonical memories that read the same everywhere are the same list. -/
theorem memory_ext (hm : Memory.wf font m) (hm' : Memory.wf font m')
    (h : ∀ a, readByte font m a = readByte font m' a) : m = m' := by
  induction m generalizing m' with
  | nil =>
    cases m' with
    | nil => rfl
    | cons d m' => exact absurd (readByte_head.symm.trans (h d.1).symm) (head_ne_resetByte hm')
  | cons c m ih =>
    cases m' with
    | nil => exact absurd (readByte_head.symm.trans (h c.1)) (head_ne_resetByte hm)
    | cons d m' =>
      have haddr : c.1 = d.1 := le_antisymm (head_le_of_same_reads hm' hm fun a => (h a).symm)
        (head_le_of_same_reads hm hm' h)
      have hbyte : c.2 = d.2 := by rw [← readByte_head, h, haddr, readByte_head]
      have hrest (a : Nat) : readByte font m a = readByte font m' a := by
        by_cases ha : c.1 = a
        · rw [readByte_tail_of_le_head hm ha.ge, readByte_tail_of_le_head hm' (haddr ▸ ha.ge)]
        · rw [← readByte_of_ne_head ha, h, readByte_of_ne_head (haddr ▸ ha)]
      rw [Prod.ext haddr hbyte, ih (Memory.wf_tail hm) (Memory.wf_tail hm') hrest]

end

end Sys2Proof.Machine
end

section
/-!
Steps and runs of given instructions: the sound timer (R185), the placed instruction (log 7), and
the programs that stand still (R9, R212).
-/

namespace Sys2Proof.Machine

open Sys2Proof.Claims

/-- A step whose instruction raises no fault is that instruction and the tick (R90). -/
theorem step_of_exec {i : Instr} {s u : State} (hrun : s.fault = none)
    (hpc : s.pc.toNat + 1 ≤ 0xFFF) (hdec : Decodes (opcodeAt s) i)
    (hexec : exec i (clearOutputs s) = .next u) (hok : u.fault = none) :
    step s = .next (Ticked u) := by
  rw [step_of_decode_ok hrun (fetchOpcode_of_in_range hpc) hdec, hexec, finishResult,
    finishStep_eq_ite, if_pos hok]

theorem ticked_toNat (d : Byte) : (ticked d).toNat = d.toNat - 1 := countDown_toNat d

theorem byte_eq_one_iff (b : Byte) : b = 1 ↔ b.toNat = 1 := by
  rw [← BitVec.toNat_inj]; rfl

/-! ### The sound timer -/

section
variable {s t : State} (hstep : step s = .next t) (hrun : s.fault = none) (hok : t.fault = none)
include hstep hrun hok

/-- A step that loads `ST` ticks the loaded byte. -/
theorem st_of_loading_step {x : VReg} (h : Decodes (opcodeAt s) (.ldStVx x)) :
    t.st.toNat = (getV s x).toNat - 1 ∧ (t.tone = true ↔ (getV s x).toNat = 1) := by
  obtain ⟨-, hticks⟩ := timersTickOncePerStep s t hstep
  obtain ⟨-, -, -, hload⟩ := hticks hrun hok
  obtain ⟨hst, htone⟩ := hload x h
  rw [hst, htone, ticked_toNat, byte_eq_one_iff]
  exact ⟨rfl, Iff.rfl⟩

/-- A step that does not load `ST` ticks the old one. -/
theorem st_of_counting_step (h : ∀ x, ¬ Decodes (opcodeAt s) (.ldStVx x)) :
    t.st.toNat = s.st.toNat - 1 ∧ (t.tone = true ↔ s.st.toNat = 1) := by
  obtain ⟨-, hticks⟩ := timersTickOncePerStep s t hstep
  obtain ⟨-, -, hcount, -⟩ := hticks hrun hok
  obtain ⟨hst, htone⟩ := hcount h
  rw [hst, htone, ticked_toNat, byte_eq_one_iff]
  exact ⟨rfl, Iff.rfl⟩

end

/-! ### The placed instruction -/

theorem tableOpcode_toNat (op : Word) : tableOpcode 16 op.toNat = op := by
  rw [tableOpcode, Nat.mod_eq_of_lt op.isLt, BitVec.ofNat_toNat, BitVec.setWidth_eq]

/-- Where a running core can fetch, placing a word is storing its two bytes at `PC`. -/
theorem withFetchWord_of_in_range {s : State} (hrun : s.fault = none)
    (hpc : s.pc.toNat + 1 ≤ 0xFFF) (op : Word) :
    s.withFetchWord 16 op.toNat = storeBytes s s.pc.toNat [highByte op, lowByte op] := by
  have hin : inRange (s.pc.toNat + 1) = true := decide_eq_true hpc
  have hlatch : { s with fault := none } = s := by rw [← hrun]
  rw [State.withFetchWord, tableOpcode_toNat, placeOpcode, if_pos hin, hlatch]

/-! ### Standing still -/

/-- The next step fetches a jump to itself, or waits for a key while none is down. -/
def StandsStill (s : State) : Prop :=
  s.fault = none ∧ s.pc.toNat + 1 ≤ 0xFFF ∧
    (Decodes (opcodeAt s) (.jp s.pc.toNat) ∨
      ((∃ x, Decodes (opcodeAt s) (.ldVxK x)) ∧ ∀ k : Fin 16, s.keys[k.val] = false))

theorem exec_jp_self (s : State) : exec (.jp s.pc.toNat) s = .next s := by
  have hself : addressWord s.pc.toNat = s.pc := by
    rw [addressWord, BitVec.ofNat_toNat, BitVec.setWidth_eq]
  rw [exec, execJp, hself]; rfl

/-- The step of a core that stands still is its tick. -/
theorem step_of_standsStill {s : State} (h : StandsStill s) :
    step s = .next (Ticked (clearOutputs s)) := by
  obtain ⟨hrun, hpc, hjump | ⟨⟨x, hwait⟩, hkeys⟩⟩ := h
  · exact step_of_exec hrun hpc hjump (exec_jp_self (clearOutputs s)) hrun
  · exact step_of_exec hrun hpc hwait (exec_ldVxK_of_no_key (s := clearOutputs s) hkeys x) hrun

/-- A tick does not touch what the core stands still by. -/
theorem standsStill_tick {s : State} (h : StandsStill s) :
    StandsStill (Ticked (clearOutputs s)) := h

theorem run_of_standsStill {s : State} (h : StandsStill s) (n : Nat) :
    ∃ t, Sys2Proof.core.run n s = .next t ∧
      t = { s with dt := t.dt, st := t.st, tone := t.tone, unk := t.unk } ∧
      t.dt.toNat = s.dt.toNat - n ∧ t.st.toNat = s.st.toNat - n := by
  induction n generalizing s with
  | zero => exact ⟨s, rfl, rfl, rfl, rfl⟩
  | succ n ih =>
    obtain ⟨t, hrun, hframe, hdt, hst⟩ := ih (standsStill_tick h)
    have hdt' : (ticked s.dt).toNat = s.dt.toNat - 1 := ticked_toNat s.dt
    have hst' : (ticked s.st).toNat = s.st.toNat - 1 := ticked_toNat s.st
    refine ⟨t, (run_succ (step_of_standsStill h) n).trans hrun, hframe, ?_, ?_⟩
    · change t.dt.toNat = (ticked s.dt).toNat - n at hdt
      omega
    · change t.st.toNat = (ticked s.st).toNat - n at hst
      omega

end Sys2Proof.Machine
end

section
/-!
What a store leaves in memory for the next fetch and the next load (R64, R147), and what two draws
make of the screen (R152).
-/

namespace Sys2Proof.Machine

open Sys2Proof.Claims

/-! ### Stores -/

/-- No instruction but the three of R140 to R142 changes `I`. -/
theorem i_of_exec {i : Instr} {s t : State} (h : exec i s = .next t)
    (hi : ¬ ((∃ nnn, i = .ldI nnn) ∨ (∃ x, i = .addIVx x) ∨ ∃ x, i = .ldFVx x)) : t.i = s.i :=
  not_not.1 (mt (effect_of_exec h).i_changed hi)

theorem bcdDigits_getD (s : State) (x : VReg) {k : Nat} (hk : k < 3) :
    (bcdDigits (getV s x)).getD k 0 = storedByte (.ldBVx x) s k := by
  obtain rfl | rfl | rfl : k = 0 ∨ k = 1 ∨ k = 2 := by omega
  all_goals rfl

theorem registerBlock_getD_storedByte (s : State) (x : VReg) {k : Nat} (hk : k < x.val + 1) :
    (registerBlock s x).getD k 0 = storedByte (.ldMemVx x) s k := by
  have hval : (Fin.ofNat 16 k).val = k := Nat.mod_eq_of_lt (by omega)
  have hblock := registerBlock_getD s x (Fin.ofNat 16 k) (by omega)
  rwa [hval] at hblock

/-- The two storing instructions store a block of the bytes `storedByte` lists. -/
theorem exec_of_store {i : Instr} (h : 0 < storeLengthOf i) (s : State) :
    ∃ bs : List Byte, bs.length = storeLengthOf i ∧
      (∀ k, k < storeLengthOf i → bs.getD k 0 = storedByte i s k) ∧
      exec i s = .next (withBlock s bs.length (storeBlock bs)) := by
  cases i with
  | ldBVx x => exact ⟨bcdDigits (getV s x), rfl, fun _ => bcdDigits_getD s x, rfl⟩
  | ldMemVx x =>
    have hlen : (registerBlock s x).length = x.val + 1 := registerBlock_length s x
    exact ⟨registerBlock s x, hlen, fun _ => registerBlock_getD_storedByte s x, by rw [hlen]; rfl⟩
  | _ => exact absurd h (Nat.lt_irrefl 0)

/-- A store without a fault goes on at `PC + 2`, and every byte of memory is the stored one inside
the block and the old one outside. -/
theorem byteAt_of_store {i : Instr} {s u : State} (hmem : MemWf s) (hlen : 0 < storeLengthOf i)
    (hexec : exec i s = .next u) (hok : u.fault = none) :
    u.pc = s.pc + 2 ∧ ∀ a, byteAt u a =
      if s.i.toNat ≤ a ∧ a < s.i.toNat + storeLengthOf i then storedByte i s (a - s.i.toNat)
      else byteAt s a := by
  obtain ⟨bs, hbs, hbytes, hstore⟩ := exec_of_store hlen s
  obtain rfl := Host.Outcome.next.inj (hstore.symm.trans hexec)
  obtain ⟨hin, h⟩ | ⟨-, h⟩ := withBlock_cases s bs.length (storeBlock bs)
  · rw [h]
    refine ⟨rfl, fun a => ?_⟩
    rw [storeBlock_eq, byteAt_advance, byteAt_storeBytes bs hmem (hin.resolve_left (by omega)), hbs]
    split
    next hblock => exact hbytes _ (by omega)
    next => rfl
  · exact nomatch h ▸ hok

/-! ### Drawing twice -/

theorem fb_ext_fbCell {fb fb' : Framebuffer} (h : ∀ k, fbCell fb k = fbCell fb' k) : fb = fb' :=
  fb_ext fun row col => by rw [← fbCell_cellIndex, h, fbCell_cellIndex]

/-- The covered cells depend on memory and `I` only. -/
theorem covered_congr {s t : State} (hmem : SameMemory s t) (hi : t.i = s.i) (vx vy : Byte)
    (n : Nat) (k : Fin 2048) : Covered t vx vy n k ↔ Covered s vx vy n k := by
  simp only [Covered, hi, hmem _]

/-- Column `c ≥ 4` of a sprite at column 60 falls on column `c - 4` of the same row (R151). -/
theorem covered_wrapped {s : State} {vy : Byte} {n r c : Nat} {k : Fin 2048} (hr : r < n)
    (hc : 4 ≤ c) (hc' : c < 8) (hbit : (byteAt s (s.i.toNat + r)).getLsbD (7 - c) = true)
    (hk : k.val = (vy.toNat + r) % 32 * 64 + (c - 4)) : Covered s 60 vy n k := by
  have hwrap : ((60 : Byte).toNat + c) % 64 = c - 4 := by
    change (60 + c) % 64 = c - 4
    omega
  exact ⟨r, hr, c, hc', by rw [hk, hwrap], hbit⟩

end Sys2Proof.Machine
end

section

open Sys2Proof Sys2Proof.Machine Sys2Proof.Claims

/-- Settles O27: both lists begin with the least address that does not read as reset, and so on. -/
theorem canonicalMemoryIsDeterminedByItsReads : Obligations.CanonicalMemoryIsDeterminedByItsReads :=
  fun _ _ _ hm hm' h => memory_ext hm hm' h

/-- Settles O14: placing is a store of the two bytes of the word, which the fetch composes again. -/
theorem stepRunsThePlacedInstruction : Obligations.StepRunsThePlacedInstruction := by
  intro s p i hmem hwf hrun hpc hp
  have hplaced := hp.trans (withFetchWord_of_in_range hrun hpc (encode i))
  have hfetch : fetchOpcode p = some (encode i) := by
    rw [hp, fetchOpcode_withFetchWord hmem, tableOpcode_toNat]
  have hframe : p = { s with mem := p.mem } := by rw [hplaced]; rfl
  have hrun' : p.fault = none := by rw [hframe]; exact hrun
  have hpc' : p.pc.toNat + 1 ≤ 0xFFF := by rw [hframe]; exact hpc
  have hdec : Decodes (opcodeAt p) i := by
    have hop := (fetchOpcode_of_in_range hpc').symm.trans hfetch
    rw [Decodes, Option.some.inj hop, decode_encode hwf]
  have htable : decodeTableWord 16 (encode i).toNat = some i := by
    rw [decodeTableWord, tableOpcode_toNat]
    simp only [decodeBytes, composeOpcode_highByte_lowByte, decode_encode hwf]
  obtain ⟨-, -, -, hexecute⟩ := stepFollowsTheCycle p
  obtain ⟨t, hexec, hstep, -⟩ := hexecute i hrun' hpc' hdec
  exact ⟨htable, hframe, hdec, hfetch, t, hexec, hstep⟩

/-- Settles O18: by induction on the step. The load's own step is the first tick of `Vx`, and every
later step ticks `ST` once more. -/
theorem soundTimerLoadGivesOneTonePulse : Obligations.SoundTimerLoadGivesOneTonePulse := by
  intro run n x hsteps hload hother k hk
  obtain ⟨hstep, hrun, hok⟩ := hsteps k hk
  induction k with
  | zero => exact st_of_loading_step hstep hrun hok hload
  | succ k ih =>
    obtain ⟨hstep', hrun', hok'⟩ := hsteps k (by omega)
    obtain ⟨hbefore, -⟩ := ih (by omega) hstep' hrun' hok'
    have hnone := hother (k + 1) k.succ_pos hk
    obtain ⟨hst, htone⟩ := st_of_counting_step hstep hrun hok hnone
    rw [hst, htone, hbefore]
    omega

/-- Settles O19: a step of a core that stands still is a tick, after which it still does. -/
theorem selfJumpAndKeyWaitStandStill : Obligations.SelfJumpAndKeyWaitStandStill :=
  fun _ n hrun hpc hstill => run_of_standsStill ⟨hrun, hpc, hstill⟩ n

/-- Settles O22: the two stack faults, and the bound the type of `SP` carries. -/
theorem stackFaultsLatchAndChangeNothing : Obligations.StackFaultsLatchAndChangeNothing :=
  ⟨fun _ nnn h => exec_call_of_full h nnn, fun _ h => exec_ret_of_empty h,
    fun s => Nat.le_of_lt_succ s.sp.isLt⟩

/-- Settles O35: the entry the return pops is the one the call pushed, the address of the call. -/
theorem callThenReturnComesBack : Obligations.CallThenReturnComesBack := by
  intro s t u nnn hsp hcall husp hustack
  rw [exec_call_of_room hsp] at hcall
  cases hcall
  have hsp' : u.sp.val = s.sp.val + 1 := congrArg Fin.val husp
  refine ⟨_, exec_ret_of_nonempty (by omega), ?_, ?_, hustack⟩
  · simp only [hustack, hsp', Nat.add_sub_cancel, Vector.getElem_set_self]
  · exact Fin.ext (by simp only [hsp', Nat.add_sub_cancel])

/-- Settles O42: one register write of the masked byte, the counter moved on. -/
theorem randomByteIsMasked : Obligations.RandomByteIsMasked := by
  intro s x nn
  have hread (q : VReg) :=
    getV_setV { s with draws := s.draws + 1 } x q (Config.rndByte s.draws &&& nn)
  have hx := (hread x).trans (if_pos rfl)
  refine ⟨decodes_rnd x nn, _, rfl, rfl, fun _ => rfl, fun q hq => ?_, hx, fun hzero => ?_,
    fun hones => ?_⟩
  · exact (hread q).trans (if_neg hq)
  · rw [hzero] at hx ⊢
    exact hx.trans BitVec.and_zero
  · rw [hones] at hx ⊢
    exact hx.trans BitVec.and_allOnes

/-- Settles O47: no memory instruction is one of the three that write `I`; the load reads byte by
byte what the store wrote. -/
theorem dumpThenLoadGivesTheRegistersBack : Obligations.DumpThenLoadGivesTheRegistersBack := by
  refine ⟨?_, fun s t u x hmem hin hdump hsame hui => ?_⟩
  · rintro s t x y n (h | h | h | h)
    · exact i_of_exec h (by simp)
    · exact i_of_exec h (by simp)
    · exact i_of_exec h (by simp)
    · exact i_of_exec h (by simp)
  · obtain ⟨-, hstores, -⟩ := registerDumpStoresTheBlock s x hmem
    obtain ⟨t', hdump', -, hstored, -⟩ := hstores hin
    obtain rfl := Host.Outcome.next.inj (hdump'.symm.trans hdump)
    have hi : u.i = s.i := hui.trans (i_of_exec hdump (by simp))
    obtain ⟨-, hloads, -⟩ := registerLoadReadsTheBlock u x
    obtain ⟨w, hload, -, -, hread⟩ := hloads (by rw [hi]; exact hin)
    refine ⟨w, hload, (i_of_exec hload (by simp)).trans hi, fun r hr => ?_⟩
    rw [hread, if_pos hr, hi, hsame, hstored r hr]

/-- Settles O48: the step is the store and the tick, and the next fetch composes two bytes of the
memory the store left. -/
theorem storeIsSeenByTheNextFetch : Obligations.StoreIsSeenByTheNextFetch := by
  intro i s t next hmem hrun hdec hlen hstep hok hnext
  obtain ⟨-, rfl⟩ | ⟨-, hunknown, -⟩ | ⟨j, u, hj, hexec, ⟨hu, rfl⟩ | ⟨f, rfl⟩⟩ :=
    step_running_cases hrun hstep
  · exact nomatch hok
  · exact absurd hdec (hunknown i)
  · obtain rfl := decodes_unique hj hdec
    obtain ⟨hpc, hread⟩ := byteAt_of_store (s := clearOutputs s) hmem hlen hexec hu
    have hbyte (a : Nat) : byteAt (Ticked u) a = next a := (hread a).trans (hnext a).symm
    refine ⟨hpc, fun hin => ?_⟩
    have hpc' : (Ticked u).pc.toNat = s.pc.toNat + 2 := by
      have : (Ticked u).pc = s.pc + 2 := hpc
      bv_omega
    have hrange : inRange ((Ticked u).pc.toNat + 1) = true := decide_eq_true (by omega)
    rw [fetchOpcode, if_pos hrange, hbyte, hbyte, hpc']
  · exact nomatch hok

/-- Settles O51: both draws toggle the same cells, so the second undoes the first and meets a set
cell exactly where the first found a clear one. -/
theorem drawingTwiceRestoresTheScreen : Obligations.DrawingTwiceRestoresTheScreen := by
  intro s t x y n hn hin hdraw
  obtain ⟨-, hdraws, -⟩ := drawTogglesExactlyTheCoveredCells s x y n hn
  obtain ⟨t', hdraw', -, hmem, hcell, hvf, hvf_one, -⟩ := hdraws hin
  obtain rfl := Host.Outcome.next.inj (hdraw'.symm.trans hdraw)
  have hi : t'.i = s.i := i_of_exec hdraw (by simp)
  refine ⟨fun hx hy => ?_, fun hblank => ?_, fun hx r hr c hc hc' hbit k hk => ?_⟩
  · obtain ⟨-, hdraws', -⟩ := drawTogglesExactlyTheCoveredCells t' x y n hn
    obtain ⟨u, hdraw'', -, -, hcell', -, hvf_one', -⟩ := hdraws' (by rwa [hi])
    simp only [hx, hy, covered_congr hmem hi] at hcell' hvf_one'
    refine ⟨u, hdraw'', fb_ext_fbCell fun k => ?_, ?_⟩
    · rw [Bool.eq_iff_iff, hcell', hcell]
      by_cases hcov : Covered s (getV s x) (getV s y) n k
      · simp only [hcov, iff_true, not_not]
      · simp only [hcov, iff_false, not_not]
    · rw [hvf_one']
      refine exists_congr fun k => and_congr_right fun hcov => ?_
      rw [hcell, iff_true_right hcov, Bool.not_eq_true]
  · refine hvf.resolve_right fun hone => ?_
    obtain ⟨k, -, hset⟩ := hvf_one.1 hone
    exact Bool.false_ne_true ((hblank k).symm.trans hset)
  · have hcov : Covered s (getV s x) (getV s y) n k := hx ▸ covered_wrapped hr hc hc' hbit hk
    rw [Bool.eq_iff_iff, hcell, iff_true_right hcov, Bool.not_eq_true, Bool.not_eq_true']

/-- Settles O54: each transfer writes one byte, and the step of it ticks the state with that byte
written. -/
theorem timerTransfersAndTheTickOfTheirStep : Obligations.TimerTransfersAndTheTickOfTheirStep := by
  intro s x
  refine ⟨⟨decodes_ldVxDt x, answers_of_writeResult rfl rfl⟩,
    ⟨decodes_ldDtVx x, _, rfl, rfl, fun _ => rfl⟩, ⟨decodes_ldStVx x, _, rfl, rfl, fun _ => rfl⟩,
    fun hrun hpc => ⟨fun hdec => ?_, fun hdec => ?_, fun hdec => ?_⟩⟩
  · refine ⟨_, step_of_exec hrun hpc hdec rfl hrun, ?_, rfl⟩
    exact (getV_setV (clearOutputs s) x x s.dt).trans (if_pos rfl)
  · exact ⟨_, step_of_exec hrun hpc hdec rfl hrun, rfl⟩
  · exact ⟨_, step_of_exec hrun hpc hdec rfl hrun, rfl, decide_eq_true_iff⟩

end

section
/-!
State that an instruction does not touch (R36): an update of it may be made before or after the
instruction.
-/

namespace Sys2Proof.Machine

open Sys2Proof.Claims

/-! ### The columns I, M and STACK of the access matrix -/

/-- The instructions that read or write `I`. -/
def touchesI : Instr → Bool
  | .drw _ _ _ | .ldI _ | .addIVx _ | .ldFVx _ | .ldBVx _ | .ldMemVx _ | .ldVxMem _ => true
  | _ => false

/-- The instructions that read or write memory. -/
def touchesMemory : Instr → Bool
  | .drw _ _ _ | .ldBVx _ | .ldMemVx _ | .ldVxMem _ => true
  | _ => false

/-- The instructions that use the call stack. -/
def touchesStack : Instr → Bool
  | .ret | .call _ => true
  | _ => false

theorem i_of_untouched {i : Instr} {s t : State} (h : touchesI i = false)
    (hexec : exec i s = .next t) : t.i = s.i := by
  refine i_of_exec hexec ?_
  rintro (⟨_, rfl⟩ | ⟨_, rfl⟩ | ⟨_, rfl⟩)
  all_goals cases h

theorem sameMemory_of_untouched {i : Instr} {s t : State} (h : touchesMemory i = false)
    (hexec : exec i s = .next t) : SameMemory s t := by
  refine (effect_of_exec hexec).sameMemory ?_
  cases i with
  | ldBVx | ldMemVx => cases h
  | _ => rfl

theorem stack_of_untouched {i : Instr} {s t : State} (h : touchesStack i = false)
    (hexec : exec i s = .next t) (k : Fin 16) : t.stack[k.val] = s.stack[k.val] := by
  refine ((effect_of_exec hexec).stack k).resolve_right ?_
  rintro ⟨⟨_, rfl⟩, -⟩
  cases h

/-- The update `g` is of one column of the access matrix, which `i` neither reads nor writes. -/
inductive Untouched (i : Instr) : (State → State) → Prop where
  | keys (ks : Vector Bool 16) (h : ∀ x, i ≠ .skp x ∧ i ≠ .sknp x ∧ i ≠ .ldVxK x) :
      Untouched i fun t => { t with keys := ks }
  | draws (d : Nat) (h : ∀ x nn, i ≠ .rnd x nn) : Untouched i fun t => { t with draws := d }
  | fb (fb : Framebuffer) (hcls : i ≠ .cls) (hdrw : ∀ x y n, i ≠ .drw x y n) :
      Untouched i fun t => { t with fb := fb }
  | dt (d : Byte) (h : ∀ x, i ≠ .ldVxDt x ∧ i ≠ .ldDtVx x) : Untouched i fun t => { t with dt := d }
  | st (d : Byte) (h : ∀ x, i ≠ .ldStVx x) : Untouched i fun t => { t with st := d }
  | dirty (d : Bool) (hcls : i ≠ .cls) (hdrw : ∀ x y n, i ≠ .drw x y n) :
      Untouched i fun t => { t with dirty := d }
  | index (w : Word) (h : touchesI i = false) : Untouched i fun t => { t with i := w }
  | memory (font : FontRom) (m : Memory) (h : touchesMemory i = false) :
      Untouched i fun t => { t with font := font, mem := m }
  | stack (st : Vector Word 16) (h : touchesStack i = false) :
      Untouched i fun t => { t with stack := st }
  | sp (p : Fin 17) (h : touchesStack i = false) : Untouched i fun t => { t with sp := p }

/-! ### Updates and the operations with two outcomes -/

section
variable {i : Instr} {g : State → State} (hg : Untouched i g) {s : State}
include hg

theorem Untouched.raise_comm (c : FaultCause) (info : Nat) :
    raise (g s) c info = g (raise s c info) := by cases hg <;> rfl

theorem Untouched.index_eq (h : touchesI i = true) : (g s).i = s.i := by
  cases hg with
  | index _ hno => exact nomatch h.symm.trans hno
  | _ => rfl

theorem Untouched.sp_eq (h : touchesStack i = true) : (g s).sp = s.sp := by
  cases hg with
  | sp _ hno => exact nomatch h.symm.trans hno
  | _ => rfl

theorem Untouched.withBlock_comm {len : Nat} {f f' : State → State} (h : touchesI i = true)
    (hf : f' (g s) = g (f s)) : withBlock (g s) len f' = g (withBlock s len f) := by
  have hi : (g s).i = s.i := hg.index_eq h
  obtain ⟨hin, hs⟩ | ⟨hout, hs⟩ := withBlock_cases s len f
  · rw [hs, withBlock_of_in_range f' (by rwa [hi]), hf]
  · rw [hs, withBlock_of_out_of_range f' (by rwa [hi]), hi, hg.raise_comm]

end

theorem exec_ldVxK_of_untouched {x : VReg} {g : State → State} (hg : Untouched (.ldVxK x) g)
    (s : State) : exec (.ldVxK x) (g s) = onNext g (exec (.ldVxK x) s) := by
  have hscan : scanKeys (g s) = scanKeys s := by
    cases hg with
    | keys _ h => exact absurd rfl (h x).2.2
    | _ => rfl
  simp only [exec, execLdVxK, hscan]
  cases scanKeys s with
  | none => rfl
  | some k => cases hg <;> rfl

theorem exec_ret_of_untouched {g : State → State} (hg : Untouched .ret g) (s : State) :
    exec .ret (g s) = onNext g (exec .ret s) := by
  have hsp : (g s).sp = s.sp := hg.sp_eq rfl
  by_cases h : 0 < s.sp.val
  · rw [exec_ret_of_nonempty h, exec_ret_of_nonempty (s := g s) (by rwa [hsp])]
    cases hg with
    | stack _ hno | sp _ hno => cases hno
    | _ => rfl
  · have h : s.sp.val = 0 := by omega
    rw [exec_ret_of_empty h, exec_ret_of_empty (s := g s) (by rwa [hsp])]
    exact congrArg Host.Outcome.next (hg.raise_comm _ _)

theorem exec_call_of_untouched {nnn : Nat} {g : State → State} (hg : Untouched (.call nnn) g)
    (s : State) : exec (.call nnn) (g s) = onNext g (exec (.call nnn) s) := by
  have hsp : (g s).sp = s.sp := hg.sp_eq rfl
  by_cases h : s.sp.val < 16
  · rw [exec_call_of_room h, exec_call_of_room (s := g s) (by rwa [hsp])]
    cases hg with
    | stack _ hno | sp _ hno => cases hno
    | _ => rfl
  · have h : s.sp.val = 16 := by omega
    rw [exec_call_of_full h, exec_call_of_full (s := g s) (by rwa [hsp])]
    exact congrArg Host.Outcome.next (hg.raise_comm _ _)

/-- An update of what the instruction does not touch may be made before or after it. -/
theorem exec_of_untouched {i : Instr} {g : State → State} (hg : Untouched i g) (s : State) :
    exec i (g s) = onNext g (exec i s) := by
  cases i with
  | ret => exact exec_ret_of_untouched hg s
  | call nnn => exact exec_call_of_untouched hg s
  | ldVxK x => exact exec_ldVxK_of_untouched hg s
  | cls =>
    cases hg with
    | fb _ h | dirty _ h => exact absurd rfl h
    | _ => rfl
  | drw x y n =>
    refine congrArg Host.Outcome.next (hg.withBlock_comm rfl ?_)
    cases hg with
    | fb _ _ h | dirty _ _ h => exact absurd rfl (h x y n)
    | index _ h | memory _ _ h => cases h
    | _ => rfl
  | ldBVx | ldMemVx | ldVxMem =>
    refine congrArg Host.Outcome.next (hg.withBlock_comm rfl ?_)
    cases hg with
    | index _ h | memory _ _ h => cases h
    | _ => rfl
  | skp x =>
    cases hg with
    | keys _ h => exact absurd rfl (h x).1
    | _ => rfl
  | sknp x =>
    cases hg with
    | keys _ h => exact absurd rfl (h x).2.1
    | _ => rfl
  | rnd x nn =>
    cases hg with
    | draws _ h => exact absurd rfl (h x nn)
    | _ => rfl
  | ldVxDt x =>
    cases hg with
    | dt _ h => exact absurd rfl (h x).1
    | _ => rfl
  | ldDtVx x =>
    cases hg with
    | dt _ h => exact absurd rfl (h x).2
    | _ => rfl
  | ldStVx x =>
    cases hg with
    | st _ h => exact absurd rfl (h x)
    | _ => rfl
  | ldI | addIVx | ldFVx =>
    cases hg with
    | index _ h => cases h
    | _ => rfl
  | _ => cases hg <;> rfl

end Sys2Proof.Machine
end

section

open Sys2Proof Sys2Proof.Machine Sys2Proof.Claims

/-- Settles O30: each clause is an update of a column that the instruction does not touch. -/
theorem instructionsIgnoreOtherInputsTimersAndDisplay :
    Obligations.InstructionsIgnoreOtherInputsTimersAndDisplay :=
  fun _ s => ⟨fun ks h => exec_of_untouched (.keys ks h) s,
    fun d h => exec_of_untouched (.draws d h) s,
    fun fb hcls hdrw => exec_of_untouched (.fb fb hcls hdrw) s,
    fun d h => exec_of_untouched (.dt d h) s,
    fun d h => exec_of_untouched (.st d h) s,
    fun d hcls hdrw => exec_of_untouched (.dirty d hcls hdrw) s⟩

end

section
/-!
State that an instruction writes but does not read (R36): changed beforehand, it ends as the
instruction writes it, or as it was changed.
-/

namespace Sys2Proof.Machine

open Sys2Proof.Claims

/-- The answer from a state with untouched state updated is the updated answer. -/
theorem exec_update_of_untouched {i : Instr} {g : State → State} {s t : State}
    (hg : Untouched i g) (hexec : exec i s = .next t) : exec i (g s) = .next (g t) := by
  rw [exec_of_untouched hg, hexec]; rfl

/-! ### One V register -/

/-- `v` and `v'` came of the register file `v₀` and of `v₀` with `b` in register `r`: they agree in
every other register, and in `r` they agree too or hold what they began with. -/
def FollowsV (r : VReg) (b : Byte) (v₀ v v' : Vector Byte 16) : Prop :=
  (∀ q : VReg, q ≠ r → v'[q.val] = v[q.val]) ∧
  (v'[r.val] = v[r.val] ∨ (v[r.val] = v₀[r.val] ∧ v'[r.val] = b))

section
variable {r x : VReg} {b : Byte} {v₀ v v' : Vector Byte 16}

theorem followsV_set : FollowsV r b v₀ v₀ (v₀.set r.val b) :=
  ⟨fun _ hq => Vector.getElem_set_ne _ _ fun h => hq (Fin.ext h.symm),
    .inr ⟨rfl, Vector.getElem_set_self _⟩⟩

/-- The same write to both keeps them together. -/
theorem FollowsV.set (h : FollowsV r b v₀ v v') (c : Byte) :
    FollowsV r b v₀ (v.set x.val c) (v'.set x.val c) := by
  obtain ⟨hother, hr⟩ := h
  refine ⟨fun q hq => ?_, ?_⟩
  · simp only [Vector.getElem_set, hother q hq]
  · by_cases hx : x.val = r.val
    · exact .inl (by simp only [Vector.getElem_set, hx, if_true])
    · simpa only [Vector.getElem_set, hx, if_false] using hr

end

/-- The next states from `s` and from `s` with `b` in register `r` differ in the V registers at
most, and there as `FollowsV` says. -/
def FollowsRegister (r : VReg) (b : Byte) (s t t' : State) : Prop :=
  t' = { t with v := t'.v } ∧ FollowsV r b s.v t.v t'.v

section
variable {s : State} {r x : VReg} {b : Byte}

theorem getV_setV_of_ne (h : r ≠ x) : getV (setV s x b) r = getV s r :=
  (getV_setV s x r b).trans (if_neg h)

theorem followsRegister_withBlock {len : Nat} {f f' : State → State}
    (hf : FollowsRegister r b s (f s) (f' (setV s r b))) :
    FollowsRegister r b s (withBlock s len f) (withBlock (setV s r b) len f') := by
  obtain ⟨hin, h⟩ | ⟨hout, h⟩ := withBlock_cases s len f
  · rw [h, withBlock_of_in_range (s := setV s r b) f' hin]
    exact hf
  · rw [h, withBlock_of_out_of_range (s := setV s r b) f' hout]
    exact ⟨rfl, followsV_set⟩

theorem followsRegister_callTo (w : Word) :
    FollowsRegister r b s (callTo s w) (callTo (setV s r b) w) := by
  obtain ⟨hsp, h⟩ | ⟨hsp, h⟩ := callTo_cases s w
  · obtain ⟨_, h'⟩ := (callTo_cases (setV s r b) w).resolve_right fun ⟨hfull, _⟩ => hsp.ne hfull
    rw [h, h']
    exact ⟨rfl, followsV_set⟩
  · obtain ⟨-, h'⟩ := (callTo_cases (setV s r b) w).resolve_left fun ⟨hlt, _⟩ => hlt.ne hsp
    rw [h, h']
    exact ⟨rfl, followsV_set⟩

theorem followsRegister_returnFromCall :
    FollowsRegister r b s (returnFromCall s) (returnFromCall (setV s r b)) := by
  obtain ⟨hsp, h⟩ | ⟨hsp, h⟩ := returnFromCall_cases s
  · obtain ⟨_, h'⟩ := (returnFromCall_cases (setV s r b)).resolve_right
      fun ⟨hempty, _⟩ => hsp.ne' hempty
    rw [h, h']
    exact ⟨rfl, followsV_set⟩
  · obtain ⟨-, h'⟩ := (returnFromCall_cases (setV s r b)).resolve_left
      fun ⟨hpos, _⟩ => hpos.ne' hsp
    rw [h, h']
    exact ⟨rfl, followsV_set⟩

/-- A block that ends below the changed register is stored as before. -/
theorem registerBlock_setV (h : x.val < r.val) :
    registerBlock (setV s r b) x = registerBlock s x := by
  rw [registerBlock, blockLength, setV_v, Vector.toList_set, List.take_set_of_le h]; rfl

/-- A loaded register agrees, and one above the block is left alone. -/
theorem followsRegister_loadRegisterBlock : FollowsRegister r b s
    (next2 (loadRegisterBlock s x)) (next2 (loadRegisterBlock (setV s r b) x)) := by
  refine ⟨rfl, fun q hq => ?_, ?_⟩
  · have h : getV (loadRegisterBlock (setV s r b) x) q = getV (loadRegisterBlock s x) q := by
      rw [getV_loadRegisterBlock, getV_loadRegisterBlock, getV_setV_of_ne hq]; rfl
    exact h
  · have h : getV (loadRegisterBlock (setV s r b) x) r = getV (loadRegisterBlock s x) r ∨
        (getV (loadRegisterBlock s x) r = getV s r ∧
          getV (loadRegisterBlock (setV s r b) x) r = b) := by
      rw [getV_loadRegisterBlock, getV_loadRegisterBlock]
      split
      · exact .inl rfl
      · exact .inr ⟨rfl, (getV_setV s r r b).trans (if_pos rfl)⟩
    exact h

theorem exec_ldVxK_followsRegister (r x : VReg) (b : Byte) (s : State) :
    ∃ t t', exec (.ldVxK x) s = .next t ∧ exec (.ldVxK x) (setV s r b) = .next t' ∧
      FollowsRegister r b s t t' := by
  have hscan : scanKeys (setV s r b) = scanKeys s := rfl
  simp only [exec, execLdVxK, hscan]
  cases scanKeys s with
  | some k => exact ⟨_, _, rfl, rfl, rfl, followsV_set.set (keyByte k)⟩
  | none => exact ⟨_, _, rfl, rfl, rfl, followsV_set⟩

/-- A register that an instruction does not read is followed: every value it computes from the other
registers is the same in both. -/
theorem exec_followsRegister (i : Instr) (s : State) (r : VReg) (b : Byte)
    (hr : readsV i r = false) :
    ∃ t t', exec i s = .next t ∧ exec i (setV s r b) = .next t' ∧ FollowsRegister r b s t t' := by
  have hsame {x : VReg} (h : (r == x) = false) : getV (setV s r b) x = getV s x :=
    getV_setV_of_ne (ne_of_beq_false h).symm
  have hsame₂ {x y : VReg} (h : (r == x || r == y) = false) :
      getV (setV s r b) x = getV s x ∧ getV (setV s r b) y = getV s y :=
    (Bool.or_eq_false_iff.1 h).imp hsame hsame
  cases i with
  | ret => exact ⟨_, _, rfl, rfl, followsRegister_returnFromCall⟩
  | call nnn => exact ⟨_, _, rfl, rfl, followsRegister_callTo _⟩
  | ldVxK x => exact exec_ldVxK_followsRegister r x b s
  | ldVxMem x =>
    exact ⟨_, _, rfl, rfl, followsRegister_withBlock followsRegister_loadRegisterBlock⟩
  | ldMemVx x =>
    refine ⟨_, _, rfl, rfl, followsRegister_withBlock ?_⟩
    rw [registerBlock_setV (Nat.lt_of_not_le (of_decide_eq_false hr))]
    exact ⟨rfl, followsV_set⟩
  | ldBVx x =>
    refine ⟨_, _, rfl, rfl, followsRegister_withBlock ?_⟩
    rw [hsame hr]
    exact ⟨rfl, followsV_set⟩
  | drw x y n =>
    obtain ⟨hx, hy⟩ := hsame₂ hr
    refine ⟨_, _, rfl, rfl, followsRegister_withBlock ?_⟩
    rw [hx, hy]
    exact ⟨rfl, followsV_set.set _⟩
  | cls | jp | ldI => exact ⟨_, _, rfl, rfl, rfl, followsV_set⟩
  | jpV0 nnn =>
    have htarget : jumpV0Target (setV s r b) nnn = jumpV0Target s nnn := by
      rw [jumpV0Target, hsame hr, jumpV0Target]
    refine ⟨_, _, rfl, rfl, ?_⟩
    rw [htarget]
    exact ⟨rfl, followsV_set⟩
  | seImm | sneImm | skp | sknp | ldDtVx | ldStVx | addIVx | ldFVx =>
    refine ⟨_, _, rfl, rfl, ?_⟩
    rw [hsame hr]
    exact ⟨rfl, followsV_set⟩
  | seReg | sneReg =>
    obtain ⟨hx, hy⟩ := hsame₂ hr
    refine ⟨_, _, rfl, rfl, ?_⟩
    rw [hx, hy]
    exact ⟨rfl, followsV_set⟩
  | ldImm | rnd | ldVxDt => exact ⟨_, _, rfl, rfl, rfl, followsV_set.set _⟩
  | addImm | ldReg =>
    refine ⟨_, _, rfl, rfl, ?_⟩
    rw [hsame hr]
    exact ⟨rfl, followsV_set.set _⟩
  | orReg | andReg | xorReg =>
    obtain ⟨hx, hy⟩ := hsame₂ hr
    refine ⟨_, _, rfl, rfl, ?_⟩
    rw [hx, hy]
    exact ⟨rfl, followsV_set.set _⟩
  | shr | shl =>
    refine ⟨_, _, rfl, rfl, ?_⟩
    rw [hsame hr]
    exact ⟨rfl, (followsV_set.set _).set _⟩
  | addReg | subReg | subnReg =>
    obtain ⟨hx, hy⟩ := hsame₂ hr
    refine ⟨_, _, rfl, rfl, ?_⟩
    rw [hx, hy]
    exact ⟨rfl, (followsV_set.set _).set _⟩

end

/-! ### `I`, memory and the stack entries -/

section
variable {i : Instr} {s t : State} (hexec : exec i s = .next t)
include hexec

theorem exec_followsIndex (w : Word) (hdrw : ∀ x y n, i ≠ .drw x y n)
    (hother : ∀ x, i ≠ .addIVx x ∧ i ≠ .ldBVx x ∧ i ≠ .ldMemVx x ∧ i ≠ .ldVxMem x) :
    ∃ t', exec i { s with i := w } = .next t' ∧ t' = { t with i := t'.i } ∧
      (t'.i = t.i ∨ (t.i = s.i ∧ t'.i = w)) := by
  have hkept (h : touchesI i = false) := exec_update_of_untouched (.index w h) hexec
  have hleft (h : touchesI i = false) : t.i = s.i := i_of_untouched h hexec
  cases i with
  | drw x y n => exact absurd rfl (hdrw x y n)
  | addIVx x => exact absurd rfl (hother x).1
  | ldBVx x => exact absurd rfl (hother x).2.1
  | ldMemVx x => exact absurd rfl (hother x).2.2.1
  | ldVxMem x => exact absurd rfl (hother x).2.2.2
  | ldI | ldFVx =>
    cases hexec
    exact ⟨_, rfl, rfl, .inl rfl⟩
  | _ => exact ⟨_, hkept rfl, rfl, .inr ⟨hleft rfl, rfl⟩⟩

theorem exec_followsStack (st : Vector Word 16) (hret : i ≠ .ret) :
    ∃ t', exec i { s with stack := st } = .next t' ∧ t' = { t with stack := t'.stack } ∧
      ∀ k : Fin 16, t'.stack[k.val] = t.stack[k.val] ∨
        (t.stack[k.val] = s.stack[k.val] ∧ t'.stack[k.val] = st[k.val]) := by
  have hkept (h : touchesStack i = false) := exec_update_of_untouched (.stack st h) hexec
  have hleft (h : touchesStack i = false) (k : Fin 16) := stack_of_untouched h hexec k
  cases i with
  | ret => exact absurd rfl hret
  | call nnn =>
    by_cases hsp : s.sp.val < 16
    · rw [exec_call_of_room hsp] at hexec
      cases hexec
      refine ⟨_, exec_call_of_room (s := { s with stack := st }) hsp nnn, rfl, fun k => ?_⟩
      by_cases hk : s.sp.val = k.val
      · exact .inl (by simp only [Vector.getElem_set, hk, if_true])
      · exact .inr (by simp only [Vector.getElem_set, hk, if_false, and_self])
    · have hsp : s.sp.val = 16 := by omega
      rw [exec_call_of_full hsp] at hexec
      cases hexec
      exact ⟨_, exec_call_of_full (s := { s with stack := st }) hsp nnn, rfl,
        fun _ => .inr ⟨rfl, rfl⟩⟩
  | _ => exact ⟨_, hkept rfl, rfl, fun k => .inr ⟨hleft rfl k, rfl⟩⟩

section
variable {font : FontRom} {m : Memory} (hmem : MemWf s) (hm : Memory.wf font m)
include hmem hm

/-- Both memories take the stored block, and outside it both are left alone. -/
theorem store_followsMemory {bs : List Byte} (hpos : 0 < bs.length)
    (hs : exec i s = .next (withBlock s bs.length (storeBlock bs)))
    (hs' : exec i { s with font := font, mem := m } =
      .next (withBlock { s with font := font, mem := m } bs.length (storeBlock bs))) :
    ∃ t', exec i { s with font := font, mem := m } = .next t' ∧
      t' = { t with font := font, mem := t'.mem } ∧
      ∀ a, byteAt t' a = byteAt t a ∨
        (byteAt t a = byteAt s a ∧ byteAt t' a = readByte font m a) := by
  obtain rfl := Host.Outcome.next.inj (hs.symm.trans hexec)
  refine ⟨_, hs', ?_⟩
  obtain ⟨hin, h⟩ | ⟨hout, h⟩ := withBlock_cases s bs.length (storeBlock bs)
  · rw [h, withBlock_of_in_range (s := { s with font := font, mem := m }) _ hin]
    have hlen : s.i.toNat + bs.length ≤ Config.memSize := hin.resolve_left hpos.ne'
    refine ⟨rfl, fun a => ?_⟩
    rw [storeBlock_eq, storeBlock_eq, byteAt_advance, byteAt_advance,
      byteAt_storeBytes bs hmem hlen,
      byteAt_storeBytes (s := { s with font := font, mem := m }) bs hm hlen]
    split
    · exact .inl rfl
    · exact .inr ⟨rfl, rfl⟩
  · rw [h, withBlock_of_out_of_range (s := { s with font := font, mem := m }) _ hout]
    exact ⟨rfl, fun _ => .inr ⟨rfl, rfl⟩⟩

theorem exec_followsMemory (hdrw : ∀ x y n, i ≠ .drw x y n) (hload : ∀ x, i ≠ .ldVxMem x) :
    ∃ t', exec i { s with font := font, mem := m } = .next t' ∧
      t' = { t with font := font, mem := t'.mem } ∧
      ∀ a, byteAt t' a = byteAt t a ∨
        (byteAt t a = byteAt s a ∧ byteAt t' a = readByte font m a) := by
  have hkept (h : touchesMemory i = false) := exec_update_of_untouched (.memory font m h) hexec
  have hleft (h : touchesMemory i = false) := sameMemory_of_untouched h hexec
  cases i with
  | drw x y n => exact absurd rfl (hdrw x y n)
  | ldVxMem x => exact absurd rfl (hload x)
  | ldBVx x =>
    exact store_followsMemory hexec hmem hm (bs := bcdDigits (getV s x)) (Nat.succ_pos 2) rfl rfl
  | ldMemVx x =>
    have hlen : (registerBlock s x).length = blockLength x := registerBlock_length s x
    have hpos : 0 < (registerBlock s x).length := hlen ▸ x.val.succ_pos
    exact store_followsMemory hexec hmem hm hpos (by rw [hlen]; rfl) (by rw [hlen]; rfl)
  | _ => exact ⟨_, hkept rfl, rfl, fun a => .inr ⟨hleft rfl a, rfl⟩⟩

end

end

end Sys2Proof.Machine
end

section

open Sys2Proof Sys2Proof.Machine Sys2Proof.Claims

/-- Settles O31: V, `I`, memory and the stack entries follow what was done to them; `SP` is
untouched by every instruction but `CALL` and `RET`. -/
theorem instructionsIgnoreOtherRegistersMemoryAndStack :
    Obligations.InstructionsIgnoreOtherRegistersMemoryAndStack := by
  intro i s t hexec
  refine ⟨fun r b hr => ?_, exec_followsIndex hexec,
    fun font m hmem hm => exec_followsMemory hexec hmem hm, exec_followsStack hexec,
    fun p hret hcall => exec_update_of_untouched (.sp p ?_) hexec⟩
  · obtain ⟨u, t', hu, ht', hframe, hv⟩ := exec_followsRegister i s r b hr
    obtain rfl := Host.Outcome.next.inj (hu.symm.trans hexec)
    exact ⟨t', ht', hframe, hv⟩
  · cases i with
    | ret => exact absurd rfl hret
    | call nnn => exact absurd rfl (hcall nnn)
    | _ => rfl

end
